-- ==== Sys2Proof/Word.lean ====
section
/-! DEFINITION. The widths of the block's data: bytes, cells, colours, ports and command words (R4, R55). -/

namespace Sys2Proof

/-- 8 bits: a character code, a port value, a text byte (R4 `CHAR_W`, `PORT_DATA_W`). -/
abbrev Byte := BitVec 8

/-- 4 bits: a foreground or background colour (R4 `COLOR_W`). -/
abbrev ColorBits := BitVec 4

/-- 16 bits: the content of one cell (R4 `CELL_W`). -/
abbrev CellWord := BitVec 16

/-- 16 bits: a port address (R4 `PORT_ADDR_W`). -/
abbrev PortAddr := BitVec 16

/-- 40 bits: a command word (R55). -/
abbrev CmdWord := BitVec 40

end Sys2Proof
end

