-- ==== Sys2Proof/Syntax.lean ====
section
/-! DEFINITION. The five commands (R56), the sixteen colour names (R52), and a command as the host issues it (R55, R111). -/

namespace Sys2Proof

/-- The five commands, one constructor per row of opcode_table.json, operands in the source's order (R66) at the
widths of R57. Every value of every operand is legal (R52, R57, R70, R110). -/
inductive Instr where
  /-- `WRCELL ch, fg, bg, pos` (R58, R70). -/
  | wrcell (ch : Byte) (fg bg : ColorBits) (pos : BitVec 16)
  /-- `PUTC ch, fg, bg` (R59, R80). -/
  | putc (ch : Byte) (fg bg : ColorBits)
  /-- `SCROLL` (R60, R90). -/
  | scroll
  /-- `SYNCCUR col, row` (R61, R100). -/
  | synccur (col row : Byte)
  /-- `WRTEXT len, bytes` (R62, R110); the bytes are bound to the command, not part of its word (R111). -/
  | wrtext (len : BitVec 32)
  deriving DecidableEq, Repr

/-- A command as the host issues it: its word and the byte sequence bound to it. Only `WRTEXT` reads the bytes (R111). -/
structure Command where
  word : CmdWord
  bytes : List Byte
  deriving DecidableEq, Repr

/-- The colour names in the order of the source's list (R52). -/
inductive Color where
  | black | blue | green | cyan | red | magenta | brown | lightGrey
  | darkGrey | lightBlue | lightGreen | lightCyan | lightRed | lightMagenta | lightBrown | white
  deriving DecidableEq, Repr

end Sys2Proof
end

