-- ==== Sys2Proof/Decode.lean ====
section
/-! DEFINITION. The command decoder (R64, R65) and, after it, the encoder, both from the formats R58 to R62. -/

namespace Sys2Proof

/-- `w[39:32]`, the opcode (R55). -/
def opcodeField (w : CmdWord) : Byte := w.extractLsb' 32 8

/-- `w[31:16]`: `pos` of format C (R58); reserved in formats P and X (R59, R61). -/
def upperField (w : CmdWord) : BitVec 16 := w.extractLsb' 16 16

/-- `w[15:12]`: `bg` of formats C and P (R58, R59). -/
def bgField (w : CmdWord) : ColorBits := w.extractLsb' 12 4

/-- `w[11:8]`: `fg` of formats C and P (R58, R59). -/
def fgField (w : CmdWord) : ColorBits := w.extractLsb' 8 4

/-- `w[15:8]`: `row` of format X (R61). -/
def rowField (w : CmdWord) : Byte := w.extractLsb' 8 8

/-- `w[7:0]`: `ch` of formats C and P, `col` of format X (R58, R59, R61). -/
def lowField (w : CmdWord) : Byte := w.extractLsb' 0 8

/-- `w[31:0]`: the argument field; `len` of format L (R62), reserved in format N (R60). -/
def argField (w : CmdWord) : BitVec 32 := w.extractLsb' 0 32

/-- Why a word is reserved (R64). -/
inductive Reserved where
  /-- The opcode is not one of 0x01 to 0x05. -/
  | opcode (op : Byte)
  /-- A field marked "reserved, zero" in the command's format is not zero. -/
  | field (mnemonic : String)
  deriving DecidableEq, Repr

/-- The decoder: every 40-bit word is exactly one of the five commands or reserved (R65). -/
def decode (w : CmdWord) : Except Reserved Instr :=
  if opcodeField w = 0x01#8 then
    .ok (.wrcell (lowField w) (fgField w) (bgField w) (upperField w))
  else if opcodeField w = 0x02#8 then
    if upperField w = 0#16 then .ok (.putc (lowField w) (fgField w) (bgField w)) else .error (.field "PUTC")
  else if opcodeField w = 0x03#8 then
    if argField w = 0#32 then .ok .scroll else .error (.field "SCROLL")
  else if opcodeField w = 0x04#8 then
    if upperField w = 0#16 then .ok (.synccur (lowField w) (rowField w)) else .error (.field "SYNCCUR")
  else if opcodeField w = 0x05#8 then
    .ok (.wrtext (argField w))
  else
    .error (.opcode (opcodeField w))

/-- A field standing in a word with its lowest bit at bit `lo`. -/
def place {n : Nat} (field : BitVec n) (lo : Nat) : CmdWord := field.setWidth 40 <<< lo

/-- The word of a command, field by field at the bits of the format tables (R58 to R62). -/
def encode : Instr → CmdWord
  | .wrcell ch fg bg pos => place 0x01#8 32 ||| place pos 16 ||| place bg 12 ||| place fg 8 ||| place ch 0
  | .putc ch fg bg => place 0x02#8 32 ||| place 0#16 16 ||| place bg 12 ||| place fg 8 ||| place ch 0
  | .scroll => place 0x03#8 32 ||| place 0#32 0
  | .synccur col row => place 0x04#8 32 ||| place 0#16 16 ||| place row 8 ||| place col 0
  | .wrtext len => place 0x05#8 32 ||| place len 0

/-- The `mask` column of R65. -/
def rowMask : Instr → CmdWord
  | .wrcell _ _ _ _ => 0xFF00000000
  | .putc _ _ _ => 0xFFFFFF0000
  | .scroll => 0xFFFFFFFFFF
  | .synccur _ _ => 0xFFFFFF0000
  | .wrtext _ => 0xFF00000000

/-- The `match` column of R65. -/
def rowMatch : Instr → CmdWord
  | .wrcell _ _ _ _ => 0x0100000000
  | .putc _ _ _ => 0x0200000000
  | .scroll => 0x0300000000
  | .synccur _ _ => 0x0400000000
  | .wrtext _ => 0x0500000000

/-- The command the decoder reads from the word `w` of `nbits` bits, bit 0 the least significant bit of the one 40-bit
command word, bits above `nbits` zero. A command is one whole word, not a run of bytes (R55; log 3). -/
def decodeTableWord (nbits w : Nat) : Option Instr :=
  match decode (BitVec.ofNat 40 (w % 2 ^ nbits)) with
  | .ok i => some i
  | .error _ => none

end Sys2Proof
end

