-- ==== Sys2Proof/Machine/Flags.lean ====
section
/-! DEFINITION. The block has no flag, condition code or status bit (R16). What stands in their place are the bound and
wrap tests its procedures decide on, all plain unsigned comparisons (R63, R121, R125). -/

namespace Sys2Proof.Machine

/-- The bound of `WriteCellAt` (R71). -/
def posInGrid (pos : Nat) : Bool := pos < 2000

/-- The bound of `SyncCursor`: column and row are tested separately (R101). -/
def cursorOutOfRange (col row : Nat) : Bool := col ≥ 80 || row ≥ 25

/-- `PutCharacter` step 2: the column has reached 80 (R83). -/
def columnWraps (c : Nat) : Bool := c = 80

/-- `PutCharacter` step 3: the row has reached 25, the grid is exhausted (R84). -/
def gridExhausted (r : Nat) : Bool := r = 25

end Sys2Proof.Machine
end

