-- ==== Sys2Proof/Machine/Operands.lean ====
section
/-! DEFINITION. The values commands work on: the cell encoder and its inverse (R50, R51, R53), the colour numbers (R52),
the constant colours and cells (R54), the linear position and its two bytes (R31, R63), and the text contract (R117). -/

namespace Sys2Proof.Machine

/-- The value of a colour is its place in the source's list, from 0 (R52, D6). -/
def colorCode : Color → ColorBits
  | .black => 0
  | .blue => 1
  | .green => 2
  | .cyan => 3
  | .red => 4
  | .magenta => 5
  | .brown => 6
  | .lightGrey => 7
  | .darkGrey => 8
  | .lightBlue => 9
  | .lightGreen => 10
  | .lightCyan => 11
  | .lightRed => 12
  | .lightMagenta => 13
  | .lightBrown => 14
  | .white => 15

/-- The attribute byte: foreground in the low four bits, background in the high four (R53). -/
def attributeByte (fg bg : ColorBits) : Byte := bg ++ fg

/-- `Encode(ch, fg, bg)`: `ch` in bits 7 to 0, `fg` in bits 11 to 8, `bg` in bits 15 to 12 (R50). -/
def encodeCell (ch : Byte) (fg bg : ColorBits) : CellWord := attributeByte fg bg ++ ch

/-- The character of a cell value (R51). -/
def cellChar (v : CellWord) : Byte := v.extractLsb' 0 8

/-- The foreground colour of a cell value (R51). -/
def cellFg (v : CellWord) : ColorBits := v.extractLsb' 8 4

/-- The background colour of a cell value (R51). -/
def cellBg (v : CellWord) : ColorBits := v.extractLsb' 12 4

/-- The space character (R54, D21). PRESUMED in the spec itself: ASCII (K1; log 16). -/
def clearChar : Byte := 0x20

/-- The cleared cell, a space black on black (R54). -/
def clearCell : CellWord := encodeCell clearChar (colorCode .black) (colorCode .black)

/-- `TEXT_FG`, the foreground `WRTEXT` uses (R113). -/
def textFg : ColorBits := colorCode .white

/-- `TEXT_BG`, the background `WRTEXT` uses (R113). -/
def textBg : ColorBits := colorCode .black

/-- The linear position `column + row * 80`, on natural numbers (R31, R63). -/
def linearPos (col row : Nat) : Nat := col + row * 80

/-- The linear position as the 16-bit value sent to the device (R102 step 1). -/
def devicePos (col row : Nat) : BitVec 16 := BitVec.ofNat 16 (linearPos col row)

/-- "the high 8 bits" of the position (R102, R63). -/
def posHigh (p : BitVec 16) : Byte := p.extractLsb' 8 8

/-- "the low 8 bits" of the position (R102, R63). -/
def posLow (p : BitVec 16) : Byte := p.extractLsb' 0 8

/-- Whether `WRTEXT`, with `left` bytes still allowed by the cap and these bytes left of the sequence, finds every byte
it reads: the scan that the loop of R110 makes (R117). -/
def textFound : Nat → List Byte → Bool
  | left, [] => left = 0
  | left, b :: rest => left = 0 || b = 0#8 || textFound (left - 1) rest

end Sys2Proof.Machine
end

