-- ==== Sys2Proof/Config.lean ====
section
/-! DEFINITION. What a platform fixes (R5) and what the spec leaves arbitrary at boot (R21): opaque constants without a
body. The fixed parameters of R4 (80 columns, 25 rows, 2000 cells, 1920 shifted cells) are no model arguments; they
stand as numerals in the definitions that use them, as in the spec's pseudocode. -/

namespace Sys2Proof

/-- The five parameters the source fixes in words but gives no number for, with the three constraints the model may
assume of them (R5; D7 to D10). The defaults are the suggestions K5 to K7 of 93_implementation_defined.md; they only
show that such a platform exists, and nothing can be proved to equal them. -/
structure Platform where
  /-- `FB_BASE`, byte address of cell 0. R5 gives its width as "platform address width", without a number. DESIGN CHOICE:
  the model takes any natural number, so an address of the grid never wraps (log 22). -/
  fbBase : Nat := 0xB8000
  /-- `CMD_PORT`, the port that selects a device register. -/
  cmdPort : PortAddr := 0x3D4
  /-- `DATA_PORT`, the port that carries the value. -/
  dataPort : PortAddr := 0x3D5
  /-- `REG_CURSOR_HIGH`, the number that selects the high cursor byte. -/
  regCursorHigh : Byte := 0x0E
  /-- `REG_CURSOR_LOW`, the number that selects the low cursor byte. -/
  regCursorLow : Byte := 0x0F
  fbBase_even : fbBase % 2 = 0 := by decide
  ports_ne : cmdPort ≠ dataPort := by decide
  regs_ne : regCursorHigh ≠ regCursorLow := by decide
  deriving Inhabited

/-- The platform the block runs on: OPEN in the spec (R5, D8 to D10), so no body (log 8). -/
opaque Config.platform : Platform

/-- `G0`: what a cell holds at boot, one arbitrary value per cell, the same at every read (R21, D18; log 6). -/
opaque Config.bootCell : Nat → CellWord

/-- `DEV_INDEX` at boot: arbitrary (R21, U2; log 7). -/
opaque Config.bootDevIndex : Byte

/-- `DEV_CUR_HI` at boot: arbitrary (R21, U2; log 7). -/
opaque Config.bootDevCurHi : Byte

/-- `DEV_CUR_LO` at boot: arbitrary (R21, U2; log 7). -/
opaque Config.bootDevCurLo : Byte

end Sys2Proof
end

