-- ==== Sys2Proof/Machine/State.lean ====
section
/-! DEFINITION. The complete state of the block (R10), the device behind its ports (R18), the event trace (R8, R43), the
reasons a step can stop, and the state after reset (R21, R140). -/

namespace Sys2Proof.Machine

/-- The two ports the block writes; it calls the port primitive with no other (R37). -/
inductive Port where
  /-- `CMD_PORT` -/
  | cmd
  /-- `DATA_PORT` -/
  | data
  deriving DecidableEq, Repr

/-- One primitive access (R8, R43). -/
inductive Event where
  /-- `CR(i, v)`: cell `i` was read and held `v`. -/
  | cellRead (i : Nat) (v : CellWord)
  /-- `CW(i, v)`: `v` was stored in cell `i`. -/
  | cellWrite (i : Nat) (v : CellWord)
  /-- `PW(port, v)`: the byte `v` was written to a port. -/
  | portWrite (port : Port) (v : Byte)
  /-- `TR(i, b)`: byte `i` of the bound sequence was read and is `b`. -/
  | textRead (i : Nat) (b : Byte)
  deriving DecidableEq, Repr

/-- The grid's bytes: (offset from `FB_BASE`, byte) pairs, offsets strictly rising, no entry equal to what an unlisted
offset reads as (log 10). -/
abbrev Memory := List Host.Cell

/-- The display device's registers behind the port pair (R18, R104). -/
structure Device where
  /-- `DEV_INDEX` -/
  index : Byte
  /-- `DEV_CUR_HI` -/
  curHi : Byte
  /-- `DEV_CUR_LO` -/
  curLo : Byte
  deriving DecidableEq, Repr

/-- Everything R10 lists, and the host's input (`pending`, `text`; log 1). -/
structure State where
  /-- `Cell[0..1999]`, as its bytes. -/
  grid : Memory
  /-- `COL` (R12; log 9). -/
  col : Fin 80
  /-- `ROW` (R12; log 9). -/
  row : Fin 25
  /-- `DEV_INDEX`, `DEV_CUR_HI`, `DEV_CUR_LO`. -/
  dev : Device
  /-- `T`, oldest event first. -/
  trace : List Event
  /-- Commands issued and not begun, oldest first. -/
  pending : List Command
  /-- The byte sequence bound to the command now running. -/
  text : List Byte
  deriving DecidableEq, Repr

/-- The block raises no exception of any kind (R120): there is no fault, so no constructor, and nothing raises one.
Safe: no step of the model stops with a fault where the block goes on. -/
inductive Fault where
  deriving DecidableEq, Repr

/-- Why the model gives a command no meaning. -/
inductive Refusal where
  /-- An instruction whose meaning is not written yet: raised by no arm of `exec`; safe. -/
  | notModelled (mnemonic : String)
  /-- Raised by `WRTEXT` alone, when its sequence ends before `len` bytes with no zero byte: the spec gives that command
  no meaning and says a model refuses it (R117, D19, U7; log 12); safe. -/
  | textTooShort
  deriving DecidableEq, Repr

/-- The device at boot: arbitrary registers (R21, U2; log 7). -/
def Device.boot : Device :=
  { index := Config.bootDevIndex, curHi := Config.bootDevCurHi, curLo := Config.bootDevCurLo }

/-- The state right after the reset event: cursor (0, 0), trace empty, no cell and no port written (R21, R140, R141). -/
def State.reset : State :=
  { grid := [], col := 0, row := 0, dev := Device.boot, trace := [], pending := [], text := [] }

end Sys2Proof.Machine
end

