-- ==== Sys2Proof/Machine/Ops.lean ====
section
/-! DEFINITION. The named operations on memory, device, trace and registers: the primitives of R8 and the registers'
one writer. There is no exception to take and none to return from (R120, R126, R127), so no such operation stands here. -/

namespace Sys2Proof.Machine

/-- What an unlisted byte reads as: its half of the boot content `G0` of its cell, the low byte first (R21, R34). -/
def Memory.unlisted (a : Nat) : Byte :=
  if a % 2 = 0 then (Config.bootCell (a / 2)).extractLsb' 0 8 else (Config.bootCell (a / 2)).extractLsb' 8 8

/-- The canonical form: offsets strictly rising, all inside the 4000 bytes of the grid (R33), none listed with the value
it would have unlisted. -/
abbrev Memory.wf (m : Memory) : Prop :=
  m.Pairwise (fun x y => x.1 < y.1) ∧ ∀ c ∈ m, c.1 < 4000 ∧ c.2 ≠ Memory.unlisted c.1

/-- Read one byte of the grid. -/
def Memory.read : Memory → Nat → Byte
  | [], a => Memory.unlisted a
  | c :: rest, a => if a = c.1 then c.2 else Memory.read rest a

/-- Unlist a byte. -/
def Memory.remove (m : Memory) (a : Nat) : Memory := m.filter (fun c => c.1 ≠ a)

/-- List a byte that is not listed, before the first greater offset. -/
def Memory.insert : Memory → Nat → Byte → Memory
  | [], a, v => [(a, v)]
  | c :: rest, a, v => if a < c.1 then (a, v) :: c :: rest else c :: Memory.insert rest a v

/-- Write one byte of the grid, keeping the canonical form. -/
def Memory.write (m : Memory) (a : Nat) (v : Byte) : Memory :=
  if v = Memory.unlisted a then Memory.remove m a else Memory.insert (Memory.remove m a) a v

/-- The raw content of cell `i`, as an observer sees it, without an event (R24). Byte order decided once: character byte
at offset `2*i`, colour byte at `2*i + 1` (R33, R34). -/
def State.cell (s : State) (i : Nat) : CellWord :=
  Memory.read s.grid (2 * i + 1) ++ Memory.read s.grid (2 * i)

/-- Store a value in cell `i`, both bytes at once (R36), without an event. -/
def State.setCell (s : State) (i : Nat) (v : CellWord) : State :=
  { s with grid := Memory.write (Memory.write s.grid (2 * i) (v.extractLsb' 0 8)) (2 * i + 1) (v.extractLsb' 8 8) }

/-- Append an event to the trace (R8, R43). -/
def State.emit (s : State) (e : Event) : State := { s with trace := s.trace ++ [e] }

/-- The primitive `Cell[i]` (R32): its value, and the state with the event `CR`. Defined by the spec for `i < 2000`
only, and called for no other (R38; log 11). -/
def State.readCell (s : State) (i : Nat) : CellWord × State := (s.cell i, s.emit (.cellRead i (s.cell i)))

/-- The primitive `Cell[i] <- v` (R32), with the event `CW`. Defined by the spec for `i < 2000` only, and called for no
other (R38; log 11). -/
def State.writeCell (s : State) (i : Nat) (v : CellWord) : State := (s.setCell i v).emit (.cellWrite i v)

/-- What the device does on a port write (R104): a command write selects a register, a data write goes to the selected
one and, when neither cursor register is selected, has no modelled effect (U11). -/
def Device.write (d : Device) : Port → Byte → Device
  | .cmd, v => { d with index := v }
  | .data, v =>
    { d with
      curHi := if d.index = Config.platform.regCursorHigh then v else d.curHi
      curLo := if d.index = Config.platform.regCursorHigh then d.curLo
               else if d.index = Config.platform.regCursorLow then v else d.curLo }

/-- `DEV_CUR = {DEV_CUR_HI, DEV_CUR_LO}`, where the device draws its cursor (R19). -/
def Device.cur (d : Device) : BitVec 16 := d.curHi ++ d.curLo

/-- The primitive `PortWrite(port, v)` (R37): synchronous, unbuffered, cannot fail; with the event `PW`. -/
def State.portWrite (s : State) (p : Port) (v : Byte) : State :=
  ({ s with dev := s.dev.write p v } : State).emit (.portWrite p v)

/-- The 16-bit address of a port (R5, R37). -/
def Port.address : Port → PortAddr
  | .cmd => Config.platform.cmdPort
  | .data => Config.platform.dataPort

/-- `COL <- c`, `ROW <- r`: the registers' only writer, used by `PutCharacter` alone (R14). The values it is called
with fit the registers (R63, R86), so nothing is cut off. -/
def State.setCursor (s : State) (c r : Nat) : State := { s with col := Fin.ofNat 80 c, row := Fin.ofNat 25 r }

/-- The command leaves the pending list and its byte sequence becomes the text source (R45, R111, R148). -/
def State.issue (s : State) (c : Command) (rest : List Command) : State := { s with pending := rest, text := c.bytes }

end Sys2Proof.Machine
end

