-- ==== Sys2Proof/Machine/WriteCell.lean ====
section
/-! DEFINITION. `WriteCellAt` and the command `WRCELL` (40_write_cell.md). -/

namespace Sys2Proof.Machine

/-- `WriteCellAt(ch, fg, bg, pos)` (R70): the one audited path of indexed writes, with its bound (R71). -/
def writeCellAt (ch : Byte) (fg bg : ColorBits) (pos : Nat) (s : State) : State :=
  if posInGrid pos then s.writeCell pos (encodeCell ch fg bg) else s

/-- `WRCELL ch, fg, bg, pos` (R70 to R73). -/
def execWrcell (ch : Byte) (fg bg : ColorBits) (pos : BitVec 16) (s : State) : Host.Outcome State Fault Refusal :=
  .next (writeCellAt ch fg bg pos.toNat s)

end Sys2Proof.Machine
end

