-- ==== Sys2Proof/Machine/Scroll.lean ====
section
/-! DEFINITION. `Scroll`, the row-shift engine, and the command `SCROLL` (42_scroll.md). -/

namespace Sys2Proof.Machine

/-- One step of the shift: `v <- Cell[src]`, then `Cell[dst] <- v`, the raw 16 bits (R90, R91). -/
def copyCell (src dst : Nat) (s : State) : State :=
  let (v, s) := s.readCell src
  s.writeCell dst v

/-- The first `n` steps of the shift, `i` = 0 to `n - 1` in increasing order (R91). -/
def shiftCells : Nat → State → State
  | 0, s => s
  | n + 1, s => copyCell (n + 80) n (shiftCells n s)

/-- The first `n` writes of the clearing, cells 1920 to `1920 + n - 1` in increasing order (R92, D12). -/
def clearCells : Nat → State → State
  | 0, s => s
  | n + 1, s => writeCellAt clearChar (colorCode .black) (colorCode .black) (1920 + n) (clearCells n s)

/-- `Scroll()` (R90): 1920 steps of the shift, then the 80 cells of the last row. -/
def scroll (s : State) : State := clearCells 80 (shiftCells 1920 s)

/-- `SCROLL` (R90 to R95). -/
def execScroll (s : State) : Host.Outcome State Fault Refusal := .next (scroll s)

end Sys2Proof.Machine
end

