-- ==== Sys2Proof/Machine/SyncCursor.lean ====
section
/-! DEFINITION. `SyncCursor`, the hardware cursor protocol, and the command `SYNCCUR` (43_sync_cursor.md). -/

namespace Sys2Proof.Machine

/-- The four port writes of one synchronisation, in order: select high, high byte, select low, low byte (R100, R102). -/
def sendPosition (p : BitVec 16) (s : State) : State :=
  (((s.portWrite .cmd Config.platform.regCursorHigh).portWrite .data (posHigh p)).portWrite .cmd
    Config.platform.regCursorLow).portWrite .data (posLow p)

/-- `SyncCursor(col, row)` (R100) with its bound (R101). -/
def syncCursor (col row : Nat) (s : State) : State :=
  if cursorOutOfRange col row then s else sendPosition (devicePos col row) s

/-- `SYNCCUR col, row` (R100 to R106). -/
def execSynccur (col row : Byte) (s : State) : Host.Outcome State Fault Refusal :=
  .next (syncCursor col.toNat row.toNat s)

end Sys2Proof.Machine
end

