-- ==== Sys2Proof/Machine/PutCharacter.lean ====
section
/-! DEFINITION. `PutCharacter`, the cursor state machine, and the command `PUTC` (41_put_character.md). -/

namespace Sys2Proof.Machine

/-- `PutCharacter(ch, fg, bg)` (R80), its four steps in the source's order; the transient column 80 and row 25 live in
local variables only (R12, C4). -/
def putCharacter (ch : Byte) (fg bg : ColorBits) (s : State) : State :=
  let written := writeCellAt ch fg bg (linearPos s.col s.row) s
  let c := s.col.val + 1
  let c' := if columnWraps c then 0 else c
  let r := if columnWraps c then s.row.val + 1 else s.row.val
  let settled := if gridExhausted r then scroll written else written
  let r' := if gridExhausted r then 24 else r
  syncCursor c' r' (settled.setCursor c' r')

/-- `PUTC ch, fg, bg` (R80 to R87). -/
def execPutc (ch : Byte) (fg bg : ColorBits) (s : State) : Host.Outcome State Fault Refusal :=
  .next (putCharacter ch fg bg s)

end Sys2Proof.Machine
end

