-- ==== Sys2Proof/Machine/WriteText.lean ====
section
/-! DEFINITION. `WriteText`, the string entry point, and the command `WRTEXT` (44_write_text.md). -/

namespace Sys2Proof.Machine

/-- The loop of `WriteText` from index `i` on, the list being the bytes from index `i` on (R110, R111): the cap is tested
before the read, the zero byte before the write (R125). The end of the list is reached only when `i = len`, or by a
command that R117 gives no meaning. -/
def writeTextFrom (len i : Nat) : List Byte → State → State
  | [], s => s
  | b :: rest, s =>
    if i < len then
      let s := s.emit (.textRead i b)
      if b = 0#8 then s else writeTextFrom len (i + 1) rest (putCharacter b textFg textBg s)
    else s

/-- `WRTEXT len, bytes` (R110 to R117), the bytes being the text source bound to the command. A sequence that ends
before `len` bytes with no zero byte has no meaning and is refused (R117). -/
def execWrtext (len : BitVec 32) (s : State) : Host.Outcome State Fault Refusal :=
  if textFound len.toNat s.text then .next (writeTextFrom len.toNat 0 s.text s) else .refused .textTooShort

end Sys2Proof.Machine
end

