-- ==== Sys2Proof/Machine/Dispatch.lean ====
section
/-! DEFINITION. One arm per command, each one call of its meaning. -/

namespace Sys2Proof.Machine

def exec (i : Instr) (s : State) : Host.Outcome State Fault Refusal :=
  match i with
  | .wrcell ch fg bg pos => Sys2Proof.Machine.execWrcell ch fg bg pos s
  | .putc ch fg bg => Sys2Proof.Machine.execPutc ch fg bg s
  | .scroll => Sys2Proof.Machine.execScroll s
  | .synccur col row => Sys2Proof.Machine.execSynccur col row s
  | .wrtext len => Sys2Proof.Machine.execWrtext len s

end Sys2Proof.Machine
end

