-- ==== Sys2Proof/Machine/Step.lean ====
section
/-! DEFINITION. One step: the oldest issued command, run to its end (R148). -/

namespace Sys2Proof.Machine

/-- The block has no program counter and fetches nothing (R15): a step takes the oldest command the host has issued, with
the bytes bound to it, and runs it to its end (R148). A reserved word has no effect (R64). With no command issued the
block is idle and its state does not change (R22, R154). -/
def step (s : State) : Host.Outcome State Fault Refusal :=
  match s.pending with
  | [] => .next s
  | c :: rest =>
    match decode c.word with
    | .ok i => exec i (s.issue c rest)
    | .error _ => .next (s.issue c rest)

/-- `s` with the command word `w` issued before every pending command, so that the very next step runs it. It is bound
to the one-byte sequence of a terminator, which meets the contract R117 of a `WRTEXT` of any length (log 4). -/
def State.withFetchWord (s : State) (nbits w : Nat) : State :=
  { s with pending := { word := BitVec.ofNat 40 (w % 2 ^ nbits), bytes := [0] } :: s.pending }

end Sys2Proof.Machine
end

