-- ==== Sys2Proof/Machine/Assembler.lean ====
section
/-! DEFINITION. The assembler forms of R66 as data, and what command each stands for: operands in the source's argument
order, characters as numbers or quoted, colours as numbers or names, bytes as a quoted string or a list (log 17). -/

namespace Sys2Proof.Machine

/-- A `ch` operand: a number, or a quoted character. -/
inductive AsmChar where
  | number (n : Nat)
  | quoted (c : Char)
  deriving DecidableEq, Repr

/-- A colour operand: a number, or a colour name. -/
inductive AsmColor where
  | number (n : Nat)
  | name (c : Color)
  deriving DecidableEq, Repr

/-- A `bytes` operand: a quoted string (its characters, the zero character being what backslash 0 spells), or a list of
byte values. -/
inductive AsmBytes where
  | quoted (cs : List Char)
  | list (ns : List Nat)
  deriving DecidableEq, Repr

/-- One command as it is written. -/
inductive AsmCommand where
  | wrcell (ch : AsmChar) (fg bg : AsmColor) (pos : Nat)
  | putc (ch : AsmChar) (fg bg : AsmColor)
  | scroll
  | synccur (col row : Nat)
  | wrtext (len : Nat) (bytes : AsmBytes)
  deriving DecidableEq, Repr

/-- A number as a field of `w` bits, none when it does not fit. -/
def asmNumber (w n : Nat) : Option (BitVec w) := if n < 2 ^ w then some (BitVec.ofNat w n) else none

/-- A quoted character stands for its ASCII code (R66, K3); a character outside ASCII stands for nothing. -/
def asmQuoted (c : Char) : Option Byte := if c.toNat < 128 then some (BitVec.ofNat 8 c.toNat) else none

/-- The byte a `ch` operand stands for. -/
def asmChar : AsmChar → Option Byte
  | .number n => asmNumber 8 n
  | .quoted c => asmQuoted c

/-- The colour a colour operand stands for. -/
def asmColor : AsmColor → Option ColorBits
  | .number n => asmNumber 4 n
  | .name c => some (colorCode c)

/-- The sequence a `bytes` operand stands for, bound as written with no zero byte added (R66). -/
def asmBytes : AsmBytes → Option (List Byte)
  | .quoted cs => cs.mapM asmQuoted
  | .list ns => ns.mapM (asmNumber 8)

/-- The command an assembler line stands for: its word and its bound bytes; none when an operand does not fit. -/
def assemble : AsmCommand → Option Command
  | .wrcell ch fg bg pos => do
    return { word := encode (.wrcell (← asmChar ch) (← asmColor fg) (← asmColor bg) (← asmNumber 16 pos)), bytes := [] }
  | .putc ch fg bg => do
    return { word := encode (.putc (← asmChar ch) (← asmColor fg) (← asmColor bg)), bytes := [] }
  | .scroll => some { word := encode .scroll, bytes := [] }
  | .synccur col row => do
    return { word := encode (.synccur (← asmNumber 8 col) (← asmNumber 8 row)), bytes := [] }
  | .wrtext len bytes => do
    return { word := encode (.wrtext (← asmNumber 32 len)), bytes := ← asmBytes bytes }

end Sys2Proof.Machine
end

