-- ==== Sys2Proof/Machine/Observe.lean ====
section
/-! DEFINITION. What an observer sees (R24): the grid bytewise at platform addresses, and, from any prefix of the event
trace, the grid and the device in the middle of a command (R149, R150). -/

namespace Sys2Proof.Machine

/-- The byte at a platform byte address, for the 4000 addresses of the grid (R33, R34); the block has no byte elsewhere
(R38). -/
def State.byteAt (s : State) (addr : Nat) : Option Byte :=
  if Config.platform.fbBase ≤ addr ∧ addr < Config.platform.fbBase + 4000 then
    some (Memory.read s.grid (addr - Config.platform.fbBase))
  else none

/-- `MemRead(addr, 2)` as an observer does it: the 16-bit value at the byte address of a cell, low byte first (R8, R33,
R34). The spec gives this read at the addresses `FB_BASE + 2*i` only and says nothing of another (R35, N21). DESIGN
CHOICE: at an odd address the model gives no value, `none` (log 21). -/
def State.memRead (s : State) (addr : Nat) : Option CellWord :=
  if addr % 2 = 0 then
    match s.byteAt addr, s.byteAt (addr + 1) with
    | some lo, some hi => some (hi ++ lo)
    | _, _ => none
  else none

/-- What an event leaves in cell `i` that held `v` before it (R41). -/
def Event.onCell (i : Nat) (v : CellWord) : Event → CellWord
  | .cellWrite j w => if j = i then w else v
  | .cellRead _ _ => v
  | .portWrite _ _ => v
  | .textRead _ _ => v

/-- Cell `i` after the events of a trace: the last value written to it, or `G0(i)` (R40, R44). -/
def replayCell (trace : List Event) (i : Nat) : CellWord := trace.foldl (Event.onCell i) (Config.bootCell i)

/-- What an event leaves in the device (R104). -/
def Event.onDevice (d : Device) : Event → Device
  | .portWrite p v => d.write p v
  | .cellRead _ _ => d
  | .cellWrite _ _ => d
  | .textRead _ _ => d

/-- The device after the events of a trace, from a device `d` (R104). -/
def replayDevice (d : Device) (trace : List Event) : Device := trace.foldl Event.onDevice d

/-- Cell `i` as seen after the first `n` events of the run, in the middle of a command or not (R150, D24). -/
def State.cellAfter (s : State) (n i : Nat) : CellWord := replayCell (s.trace.take n) i

/-- The four events of one synchronisation carrying position `p` (R102). -/
def syncEvents (p : BitVec 16) : List Event :=
  [.portWrite .cmd Config.platform.regCursorHigh, .portWrite .data (posHigh p),
   .portWrite .cmd Config.platform.regCursorLow, .portWrite .data (posLow p)]

/-- The events of one scroll of a grid whose cells are `old` (R90, R95). -/
def scrollEvents (old : Nat → CellWord) : List Event :=
  (List.range 1920).flatMap (fun i => [.cellRead (i + 80) (old (i + 80)), .cellWrite i (old (i + 80))]) ++
    (List.range 80).map (fun j => .cellWrite (1920 + j) clearCell)

/-- The transition of the cursor state machine as the table of R86 gives it, on (column, row). -/
def nextCursor (cursor : Nat × Nat) : Nat × Nat :=
  if cursor.1 < 79 then (cursor.1 + 1, cursor.2)
  else if cursor.2 < 24 then (0, cursor.2 + 1)
  else (0, 24)

/-- The logical cursor (R12). -/
def State.cursor (s : State) : Nat × Nat := (s.col, s.row)

/-- The bytes a `WRTEXT` writes: those before the cap and before the first zero byte (R112). -/
def textWritten (len : Nat) (bytes : List Byte) : List Byte := (bytes.take len).takeWhile (· ≠ 0#8)

/-- How many scrolls a text of `n` bytes makes from linear position `p`: none while it ends before the last cell, one when
it writes cell 1999, and one more for every 80 bytes after that (R84, R116). -/
def textScrolls (p n : Nat) : Nat := if p + n < 2000 then 0 else (p + n - 2000) / 80 + 1

/-- Bytes read from index `i` on and written one after another, white on black (R110, R113). -/
def putText : Nat → List Byte → State → State
  | _, [], s => s
  | i, b :: rest, s => putText (i + 1) rest (putCharacter b textFg textBg (s.emit (.textRead i b)))

end Sys2Proof.Machine
end

