-- ==== Sys2Proof/Safety.lean ====
section
/-! DEFINITION. What counts as a safe run, in the terms claims use: the whole-machine rules of R38, R40 to R44, R103 and R104
as predicates on a state. -/

namespace Sys2Proof.Machine

/-- The event accesses no cell outside the grid (R38). -/
def Event.inBounds : Event → Prop
  | .cellRead i _ => i < 2000
  | .cellWrite i _ => i < 2000
  | .portWrite _ _ => True
  | .textRead _ _ => True

/-- Every access of the run stayed inside the grid (R38). -/
def State.accessesInBounds (s : State) : Prop := ∀ e ∈ s.trace, e.inBounds

/-- The grid holds what the trace says: the last value written to each cell, or its boot content (R41, R44). -/
def State.gridIsReplay (s : State) : Prop := ∀ i < 2000, s.cell i = replayCell s.trace i

/-- Every cell read of the run returned the value of the latest earlier write of that cell in the trace, or the boot
content (R40, R44). -/
def State.readsAreReplay (s : State) : Prop :=
  ∀ before after i v, s.trace = before ++ Event.cellRead i v :: after → v = replayCell before i

/-- The device registers hold what the port writes of the trace put there (R104). -/
def State.deviceIsReplay (s : State) : Prop := s.dev = replayDevice Device.boot s.trace

/-- The event is a port write. -/
def Event.isPortWrite : Event → Bool
  | .portWrite _ _ => true
  | .cellRead _ _ => false
  | .cellWrite _ _ => false
  | .textRead _ _ => false

/-- A trace whose port writes come only as whole synchronisations of an in-range position, four in a row with no event
between them (R102, R103). -/
inductive PortsSynchronised : List Event → Prop where
  | nil : PortsSynchronised []
  | event {t : List Event} {e : Event} : PortsSynchronised t → e.isPortWrite = false → PortsSynchronised (t ++ [e])
  | sync {t : List Event} {p : BitVec 16} : PortsSynchronised t → p.toNat < 2000 → PortsSynchronised (t ++ syncEvents p)

/-- Everything at once: the state of a run that kept the spec's whole-machine rules. -/
structure State.Safe (s : State) : Prop where
  gridCanonical : Memory.wf s.grid
  accessesInBounds : s.accessesInBounds
  gridIsReplay : s.gridIsReplay
  readsAreReplay : s.readsAreReplay
  deviceIsReplay : s.deviceIsReplay
  portsSynchronised : PortsSynchronised s.trace

/-- Cursor, host input and number of events agree, whatever the grid, the device and the events' values are (R14, R18,
R20): what claims on the cursor's independence compare. -/
def State.sameControl (s t : State) : Prop :=
  s.col = t.col ∧ s.row = t.row ∧ s.pending = t.pending ∧ s.text = t.text ∧ s.trace.length = t.trace.length

/-- The host's input is as it was: the commands not yet begun, and the bytes of the running one (R45, R145;
log 1). -/
def State.sameInput (s t : State) : Prop := t.pending = s.pending ∧ t.text = s.text

/-- Every byte of the grid outside a set of offsets is as it was. -/
def State.sameBytesOutside (s t : State) (changed : Nat → Prop) : Prop :=
  ∀ a, ¬ changed a → Memory.read t.grid a = Memory.read s.grid a

/-- The offsets of the two bytes of cell `i` (R33). -/
def cellBytes (i : Nat) (a : Nat) : Prop := a = 2 * i ∨ a = 2 * i + 1

/-- How many of the events are port writes. -/
def portWriteCount (events : List Event) : Nat := events.countP Event.isPortWrite

/-- The text reads among the events, as (index, byte), in order. -/
def textReads (events : List Event) : List (Nat × Byte) :=
  events.filterMap fun
    | .textRead i b => some (i, b)
    | .cellRead _ _ => none
    | .cellWrite _ _ => none
    | .portWrite _ _ => none

/-- The events a state has gained over an earlier one. -/
def State.newEvents (s t : State) : List Event := t.trace.drop s.trace.length

end Sys2Proof.Machine
end

