-- ==== Sys2Proof/WellFormed.lean ====
section
/-! DEFINITION. When a command with its bound bytes is one the spec gives a meaning to (R117). -/

namespace Sys2Proof

/-- A `WRTEXT len` needs every index it reads to exist: the sequence has `len` bytes, or a zero byte among its bytes
before index `len` (R117). -/
def textSuffices (len : Nat) (bytes : List Byte) : Bool :=
  decide (len ≤ bytes.length) || (bytes.take len).contains 0#8

/-- A command is well formed with the bytes bound to it. Operand fields need no check, since every value of every field
is legal (R52, R57); only `WRTEXT` has a contract, on its bytes (R117). -/
def Instr.wellFormed (bytes : List Byte) : Instr → Bool
  | .wrcell _ _ _ _ => true
  | .putc _ _ _ => true
  | .scroll => true
  | .synccur _ _ => true
  | .wrtext len => textSuffices len.toNat bytes

end Sys2Proof
end

