-- ==== Sys2Proof/Certificates/Slice0/Obligations.lean ====
section
/-! DEFINITION. The statements for the provers, from the numbered rules of spec/. -/

open Sys2Proof Sys2Proof.Machine

/-! ### Encodings (30_encoding.md) -/

/-- R58 to R62, R65: the word of every command decodes to that command, every operand at every value. -/
def Obligations.DecodeOfEncodeIsTheCommand : Prop :=
  ∀ i : Instr, decode (encode i) = .ok i

/-- R65, R58 to R62: a word that decodes to a command is the one word of that command. -/
def Obligations.EncodeOfDecodedWordIsTheWord : Prop :=
  ∀ (w : CmdWord) (i : Instr), decode w = .ok i → encode i = w

/-- R65: a word is the row's command, with the fields cut, when its masked bits match; a word that matches no row is
reserved. -/
def Obligations.DecodeByMaskAndMatch : Prop :=
  ∀ w : CmdWord,
    (w &&& 0xFF00000000 = 0x0100000000 →
      decode w = .ok (.wrcell (w.extractLsb 7 0) (w.extractLsb 11 8) (w.extractLsb 15 12) (w.extractLsb 31 16))) ∧
    (w &&& 0xFFFFFF0000 = 0x0200000000 →
      decode w = .ok (.putc (w.extractLsb 7 0) (w.extractLsb 11 8) (w.extractLsb 15 12))) ∧
    (w &&& 0xFFFFFFFFFF = 0x0300000000 → decode w = .ok .scroll) ∧
    (w &&& 0xFFFFFF0000 = 0x0400000000 → decode w = .ok (.synccur (w.extractLsb 7 0) (w.extractLsb 15 8))) ∧
    (w &&& 0xFF00000000 = 0x0500000000 → decode w = .ok (.wrtext (w.extractLsb 31 0))) ∧
    (w &&& 0xFF00000000 ≠ 0x0100000000 → w &&& 0xFFFFFF0000 ≠ 0x0200000000 → w &&& 0xFFFFFFFFFF ≠ 0x0300000000 →
      w &&& 0xFFFFFF0000 ≠ 0x0400000000 → w &&& 0xFF00000000 ≠ 0x0500000000 → ∃ r, decode w = .error r)

/-- R58 to R62 examples and the decoding vectors of 95_test_vectors.md 2.7: words written out from the formats. -/
def Obligations.SpecWordsDecode : Prop :=
  decode 0x0100000F41 = .ok (.wrcell 0x41 15 0 0) ∧ decode 0x01007D1C58 = .ok (.wrcell 0x58 12 1 125) ∧
  decode 0x020000745A = .ok (.putc 0x5A 4 7) ∧ decode 0x0300000000 = .ok .scroll ∧
  decode 0x0400000C28 = .ok (.synccur 40 12) ∧ decode 0x050000000C = .ok (.wrtext 12) ∧
  decode 0x0000000000 = .error (.opcode 0) ∧ decode 0x0600000000 = .error (.opcode 6) ∧
  decode 0x0300000001 = .error (.field "SCROLL") ∧ decode 0x0200010F41 = .error (.field "PUTC") ∧
  decode 0x0400010000 = .error (.field "SYNCCUR")

/-- R64: which words are reserved, and that such a word has no effect: it leaves the pending list and nothing else of
the block, the device or the trace changes. That it leaves the pending list is
the model's reading (log 5). -/
def Obligations.ReservedWordsHaveNoEffect : Prop :=
  (∀ w : CmdWord,
    (∃ r, decode w = .error r) ↔
      (w.extractLsb 39 32 ∉ [1#8, 2#8, 3#8, 4#8, 5#8] ∨
        ((w.extractLsb 39 32 = 2#8 ∨ w.extractLsb 39 32 = 4#8) ∧ w.extractLsb 31 16 ≠ 0#16) ∨
        (w.extractLsb 39 32 = 3#8 ∧ w.extractLsb 31 0 ≠ 0#32))) ∧
  ∀ (s : State) (c : Command) (rest : List Command) (r : Reserved),
    s.pending = c :: rest → decode c.word = .error r →
      ∃ t, step s = .next t ∧ t.pending = rest ∧
        t.grid = s.grid ∧ t.col = s.col ∧ t.row = s.row ∧ t.dev = s.dev ∧ t.trace = s.trace

/-- R50: the cell layout as concatenated fields and as a sum, total and one to one onto the 65536 cell values, with its
worked example. -/
def Obligations.EncodeCellLayout : Prop :=
  (∀ (ch : Byte) (fg bg : ColorBits),
    (encodeCell ch fg bg).toNat = ch.toNat + fg.toNat * 256 + bg.toNat * 4096 ∧
    (encodeCell ch fg bg).extractLsb 7 0 = ch ∧ (encodeCell ch fg bg).extractLsb 11 8 = fg ∧
    (encodeCell ch fg bg).extractLsb 15 12 = bg) ∧
  (∀ v : CellWord, ∃ p : Byte × ColorBits × ColorBits,
    encodeCell p.1 p.2.1 p.2.2 = v ∧ ∀ q : Byte × ColorBits × ColorBits, encodeCell q.1 q.2.1 q.2.2 = v → q = p) ∧
  encodeCell 0x41 15 0 = 0x0F41

/-- R51: decoding a cell inverts the encoder, both ways. -/
def Obligations.CellDecodingInvertsEncoding : Prop :=
  (∀ (ch : Byte) (fg bg : ColorBits), cellChar (encodeCell ch fg bg) = ch ∧ cellFg (encodeCell ch fg bg) = fg ∧
    cellBg (encodeCell ch fg bg) = bg) ∧
  ∀ v : CellWord, encodeCell (cellChar v) (cellFg v) (cellBg v) = v

/-- R53: the source's formula `c | ((fg | (bg << 4)) << 8)`, and the attribute byte `fg + bg * 16` as the high byte. -/
def Obligations.AttributeByteFormula : Prop :=
  ∀ (ch : Byte) (fg bg : ColorBits),
    encodeCell ch fg bg =
      ch.setWidth 16 ||| ((fg.setWidth 16 ||| (bg.setWidth 16 <<< 4)) <<< 8) ∧
    (attributeByte fg bg).toNat = fg.toNat + bg.toNat * 16 ∧
    (encodeCell ch fg bg).toNat = ch.toNat + (attributeByte fg bg).toNat * 256

/-- R33, R34: the byte view of a cell at platform addresses. The byte order is the spec's own decision D7 (log 10). That
`FB_BASE` and every byte address are unbounded natural numbers, so that no address of the grid wraps, is the model's choice
(log 22), on which every clause with an address rests. -/
def Obligations.ByteViewOfCells : Prop :=
  (∀ (s : State) (i : Nat), i < 2000 →
    s.memRead (Config.platform.fbBase + 2 * i) = some (s.cell i) ∧
    s.byteAt (Config.platform.fbBase + 2 * i) = some (cellChar (s.cell i)) ∧
    s.byteAt (Config.platform.fbBase + 2 * i + 1) = some ((s.cell i).extractLsb 15 8)) ∧
  ∀ (s : State) (addr : Nat),
    (s.byteAt addr).isSome ↔ Config.platform.fbBase ≤ addr ∧ addr ≤ Config.platform.fbBase + 3999

/-! ### The step, reset and the whole machine -/

/-- R148, R45: with a command issued whose word decodes, a step is `exec` of it, the command being taken off the pending
list and its bytes bound. The list and the bound bytes are the model's
fields (log 1). -/
def Obligations.StepRunsTheDecodedCommand : Prop :=
  ∀ (s : State) (c : Command) (rest : List Command) (i : Instr),
    s.pending = c :: rest → decode c.word = .ok i →
      step s = exec i { s with pending := rest, text := c.bytes }

/-- R22, R154: between commands the block is idle and its state does not change. -/
def Obligations.IdleStepChangesNothing : Prop :=
  ∀ s : State, s.pending = [] → step s = .next s

/-- R21, R140, R141: what reset leaves. That the grid reads as the draw `G0` is the spec's decision D18, and the device's
boot values are the model's free values (log 7). -/
def Obligations.ResetState : Prop :=
  State.reset.col = 0 ∧ State.reset.row = 0 ∧ State.reset.trace = [] ∧
    State.reset.dev = ⟨Config.bootDevIndex, Config.bootDevCurHi, Config.bootDevCurLo⟩ ∧
    ∀ i < 2000, State.reset.cell i = Config.bootCell i

/-- The invariant holds at reset. The canonical form is the model's (log 10), the device's reaction in its device clause
the spec's decision D11 (log 13). -/
def Obligations.ResetIsSafe : Prop := State.reset.Safe

/-- R38, R33: every step keeps the grid's memory canonical, so inside the grid's 4000 bytes (the form is log 10). -/
def Obligations.StepKeepsGridCanonical : Prop :=
  ∀ s t : State, Memory.wf s.grid → step s = .next t → Memory.wf t.grid

/-- R38: no step makes an access to a cell outside the grid. -/
def Obligations.StepKeepsAccessesInBounds : Prop :=
  ∀ s t : State, s.accessesInBounds → step s = .next t → t.accessesInBounds

/-- R40, R41, R44: every step keeps the grid equal to what its trace says was written, or the boot content. -/
def Obligations.StepKeepsGridEqualToTrace : Prop :=
  ∀ s t : State, s.gridIsReplay → step s = .next t → t.gridIsReplay

/-- R40, R44: every cell read of the trace has the value of the latest earlier write of that cell, or the boot content;
every step keeps this. -/
def Obligations.StepKeepsReadsCoherent : Prop :=
  ∀ s t : State, s.gridIsReplay → s.readsAreReplay → step s = .next t → t.readsAreReplay

/-- R104: every step keeps the device registers equal to what the trace's port writes put there. The
device's reaction is the spec's decision D11 (log 13). -/
def Obligations.StepKeepsDeviceEqualToTrace : Prop :=
  ∀ s t : State, s.deviceIsReplay → step s = .next t → t.deviceIsReplay

/-- R102, R103: port writes come only as whole synchronisations, four in a row with no event between; every step keeps
this. -/
def Obligations.StepKeepsPortsSynchronised : Prop :=
  ∀ s t : State, PortsSynchronised s.trace → step s = .next t → PortsSynchronised t.trace

/-- R154: a run is the reset event and then a finite list of commands; whatever the commands and their bytes, every state
of a run keeps the whole-machine rules. The grid's canonical form among them is the model's (log 10), and the device's
reaction to a port write is the spec's decision D11 (log 13). -/
def Obligations.EveryRunIsSafe : Prop :=
  ∀ (commands : List Command) (n : Nat) (t : State),
    Host.Core.run Sys2Proof.core n ({ State.reset with pending := commands } : State) = .next t → t.Safe

/-- R41, R43: no event is dropped or reordered; a command only adds events after those there were. -/
def Obligations.CommandsOnlyExtendTheTrace : Prop :=
  ∀ (i : Instr) (s t : State), exec i s = .next t → s.trace <+: t.trace ∧ t.trace = s.trace ++ s.newEvents t

/-- R120, R123, R117: every command completes, but the `WRTEXT` that breaks the contract on its sequence. That this
one is refused is the spec's decision D19 (log 12). -/
def Obligations.EveryWellFormedCommandCompletes : Prop :=
  ∀ (i : Instr) (s : State), i.wellFormed s.text = true → ∃ t, exec i s = .next t

/-- R14, R93, R105: only `PUTC` and `WRTEXT` move the cursor. -/
def Obligations.OnlyPutcAndWrtextMoveTheCursor : Prop :=
  ∀ (i : Instr) (s t : State), exec i s = .next t → t.cursor ≠ s.cursor →
    (∃ ch fg bg, i = .putc ch fg bg) ∨ ∃ len, i = .wrtext len

/-- R18: the block never reads the device; two states that differ only in the device run alike but for it. The device's
registers and their reaction to a port write are the spec's decision D11 (log 13). -/
def Obligations.DeviceNeverInfluencesTheBlock : Prop :=
  ∀ (i : Instr) (s t : State) (d : Device), exec i s = .next t →
    ∃ d', exec i { s with dev := d } = .next { t with dev := d' }

/-- Neither the grid's contents nor the device decide whether a command completes, where the cursor goes or how many events
happen. The device: R18. `WRCELL`: R14, R71, R123. `PUTC`: R86, R87. `SCROLL`: R93, and R95 by the order of R90.
`SYNCCUR`: R14, R101, R102. `WRTEXT`: R116, and R117 for its refusal, which is the spec's decision D19 (log 12). The host's
input, which the two states share, is two fields of the model's (log 1). -/
def Obligations.ContentsNeverInfluenceTheCursor : Prop :=
  ∀ (i : Instr) (s s' t : State), s.sameControl s' → exec i s = .next t →
    ∃ t', exec i s' = .next t' ∧ t.sameControl t'

/-! ### `WRCELL` (40_write_cell.md) -/

/-- R70, R73: in range, `WRCELL` stores the encoded cell, which reads back, with one event. -/
def Obligations.WrcellStoresTheCell : Prop :=
  ∀ (ch : Byte) (fg bg : ColorBits) (pos : BitVec 16) (s : State), pos.toNat < 2000 →
    ∃ t, exec (.wrcell ch fg bg pos) s = .next t ∧
      (t.cell pos.toNat).toNat = ch.toNat + fg.toNat * 256 + bg.toNat * 4096 ∧
      (∀ i, i ≠ pos.toNat → t.cell i = s.cell i) ∧
      t.trace = s.trace ++ [.cellWrite pos.toNat (encodeCell ch fg bg)]

/-- R71: the one bound, on the whole unsigned operand; when it fails nothing happens. -/
def Obligations.WrcellBound : Prop :=
  ∀ (ch : Byte) (fg bg : ColorBits) (pos : BitVec 16) (s : State),
    exec (.wrcell ch fg bg pos) s =
      .next (if pos.toNat < 2000 then s.writeCell pos.toNat (encodeCell ch fg bg) else s)

/-- R72: `WRCELL` leaves everything but the addressed cell, and the trace, as it was: cursor, device, host input, and every
byte but the two of an in-range cell; it makes no port write, and it runs alike whatever the cursor is, which it does not
read. -/
def Obligations.WrcellFrame : Prop :=
  ∀ (ch : Byte) (fg bg : ColorBits) (pos : BitVec 16) (s t : State), exec (.wrcell ch fg bg pos) s = .next t →
    t.col = s.col ∧ t.row = s.row ∧ t.dev = s.dev ∧ s.sameInput t ∧ portWriteCount (s.newEvents t) = 0 ∧
      s.sameBytesOutside t (fun a => pos.toNat < 2000 ∧ cellBytes pos.toNat a) ∧
      ∀ (c : Fin 80) (r : Fin 25),
        exec (.wrcell ch fg bg pos) { s with col := c, row := r } = .next { t with col := c, row := r }

/-! ### `PUTC` (41_put_character.md) -/

/-- R82: below column 79 the cursor goes one column to the right in the same row, the character standing where the cursor
was, and no scroll happens. -/
def Obligations.PutcAdvances : Prop :=
  ∀ (ch : Byte) (fg bg : ColorBits) (s : State), s.col.val < 79 →
    ∃ t, exec (.putc ch fg bg) s = .next t ∧ t.col.val = s.col.val + 1 ∧ t.row = s.row ∧
      t.cell (s.col.val + s.row.val * 80) = encodeCell ch fg bg ∧
      (∀ i, i ≠ s.col.val + s.row.val * 80 → t.cell i = s.cell i)

/-- R83: from column 79 of a row above the last the cursor goes to column 0 of the next row, without a scroll. -/
def Obligations.PutcWraps : Prop :=
  ∀ (ch : Byte) (fg bg : ColorBits) (s : State), s.col.val = 79 → s.row.val < 24 →
    ∃ t, exec (.putc ch fg bg) s = .next t ∧ t.col.val = 0 ∧ t.row.val = s.row.val + 1 ∧
      t.cell (79 + s.row.val * 80) = encodeCell ch fg bg ∧
      (∀ i, i ≠ 79 + s.row.val * 80 → t.cell i = s.cell i)

/-- R84: from (79, 24) the character is written, the grid scrolls and the cursor settles at (0, 24); the character then
stands in cell 1919 and the last row is clear. The colour numbers and the space's code are the
spec's decisions D6 and D21 (log 16). -/
def Obligations.PutcScrollsAtTheLastCell : Prop :=
  ∀ (ch : Byte) (fg bg : ColorBits) (s : State), s.col.val = 79 → s.row.val = 24 →
    ∃ t, exec (.putc ch fg bg) s = .next t ∧ t.col.val = 0 ∧ t.row.val = 24 ∧
      (∀ i < 1919, t.cell i = s.cell (i + 80)) ∧ t.cell 1919 = encodeCell ch fg bg ∧
      (∀ j, 1920 ≤ j → j < 2000 → t.cell j = 0x0020)

/-- R87, R80, R85: the events of a `PUTC`, in order, and their number: the cell write, a scroll of the grid just written
exactly at (79, 24) (R90, its 80 clearing writes in the order of R92), and the four port writes with the new cursor in the
order of R100 and R102. That the clearing goes upwards is the spec's decision D12 (log 16). -/
def Obligations.PutcEvents : Prop :=
  ∀ (ch : Byte) (fg bg : ColorBits) (s : State),
    ∃ t, exec (.putc ch fg bg) s = .next t ∧
      s.newEvents t =
        .cellWrite (s.col.val + s.row.val * 80) (encodeCell ch fg bg) ::
          ((if s.cursor = (79, 24) then
              scrollEvents (fun i => if i = 1999 then encodeCell ch fg bg else s.cell i)
            else []) ++
            [.portWrite .cmd Config.platform.regCursorHigh,
             .portWrite .data (BitVec.ofNat 8 ((t.col.val + t.row.val * 80) / 256)),
             .portWrite .cmd Config.platform.regCursorLow,
             .portWrite .data (BitVec.ofNat 8 ((t.col.val + t.row.val * 80) % 256))]) ∧
      (s.newEvents t).length = if s.cursor = (79, 24) then 3925 else 5

/-- R85, R19, R104: after every `PUTC` the device's cursor is the new logical cursor, the low register selected. The
device's reaction is the spec's decision D11 (log 13). -/
def Obligations.PutcSynchronisesTheDevice : Prop :=
  ∀ (ch : Byte) (fg bg : ColorBits) (s : State),
    ∃ t, exec (.putc ch fg bg) s = .next t ∧ t.dev.cur.toNat = t.col.val + t.row.val * 80 ∧
      t.dev.index = Config.platform.regCursorLow

/-- R80, R14: what a `PUTC` leaves alone: the host's input, and every byte but the two of the cell at the cursor; at
(79, 24), where it scrolls, every byte outside the grid. -/
def Obligations.PutcFrame : Prop :=
  ∀ (ch : Byte) (fg bg : ColorBits) (s t : State), exec (.putc ch fg bg) s = .next t →
    s.sameInput t ∧
      (s.cursor ≠ (79, 24) → s.sameBytesOutside t (cellBytes (s.col.val + s.row.val * 80))) ∧
      (s.cursor = (79, 24) → s.sameBytesOutside t (fun a => a < 4000))

/-- R86, R20: the cursor's move and the number of events do not depend on the character or the colours. -/
def Obligations.PutcOperandsNeverMoveTheCursor : Prop :=
  ∀ (ch ch' : Byte) (fg bg fg' bg' : ColorBits) (s t t' : State),
    exec (.putc ch fg bg) s = .next t → exec (.putc ch' fg' bg') s = .next t' → t.sameControl t'

/-! ### `SCROLL` (42_scroll.md) -/

/-- R94: every row but the first moves up one row unchanged, the old last row too, and every cell of the last row then
decodes to a space, black on black. -/
def Obligations.ScrollPreservesAndClears : Prop :=
  ∀ s : State, ∃ t, exec .scroll s = .next t ∧
    (∀ k c, 1 ≤ k → k ≤ 24 → c < 80 → t.cell (c + (k - 1) * 80) = s.cell (c + k * 80)) ∧
    (∀ c < 80, cellChar (t.cell (c + 24 * 80)) = clearChar ∧ cellFg (t.cell (c + 24 * 80)) = colorCode .black ∧
      cellBg (t.cell (c + 24 * 80)) = colorCode .black)

/-- R90, R91, R92, R95: the 3920 events of a scroll in order: each of the 1920 copies reads before it writes and reads what
the cell held before the command, then the 80 clearing writes. The order of the clearing is the spec's decision D12,
the space's code D21 (log 16). -/
def Obligations.ScrollEventsInOrder : Prop :=
  ∀ s : State, ∃ t, exec .scroll s = .next t ∧ (s.newEvents t).length = 3920 ∧
    (∀ i < 1920, (s.newEvents t)[2 * i]? = some (.cellRead (i + 80) (s.cell (i + 80))) ∧
      (s.newEvents t)[2 * i + 1]? = some (.cellWrite i (s.cell (i + 80)))) ∧
    (∀ j < 80, (s.newEvents t)[3840 + j]? = some (.cellWrite (1920 + j) 0x0020))

/-- R95, R150, R91: a scroll is not atomic: after `k` of its copies an observer sees the first `k` cells shifted and the
others not yet. That an observer sees any prefix of the events is the spec's decision D24 (log 2). -/
def Obligations.ScrollSeenMidway : Prop :=
  ∀ s : State, s.gridIsReplay → ∃ t, exec .scroll s = .next t ∧
    ∀ k ≤ 1920, ∀ i < 2000,
      t.cellAfter (s.trace.length + 2 * k) i = if i < k then s.cell (i + 80) else s.cell i

/-- R93: a scroll touches neither the cursor nor the device nor a port, nor any byte outside the grid, and it runs alike
whatever the cursor is, which it does not read. -/
def Obligations.ScrollFrame : Prop :=
  ∀ s t : State, exec .scroll s = .next t →
    t.col = s.col ∧ t.row = s.row ∧ t.dev = s.dev ∧ s.sameInput t ∧ portWriteCount (s.newEvents t) = 0 ∧
      s.sameBytesOutside t (fun a => a < 4000) ∧
      ∀ (c : Fin 80) (r : Fin 25), exec .scroll { s with col := c, row := r } = .next { t with col := c, row := r }

/-- R90 corner case: a grid that is all cleared cells is left as it is, as the same data, while the 3920 events still
happen. The form is the model's (log 10), the space's code 0x0020 the spec's decision D21 (log 16). -/
def Obligations.ScrollOfClearGridKeepsIt : Prop :=
  ∀ s : State, Memory.wf s.grid → (∀ i < 2000, s.cell i = 0x0020) →
    ∃ t, exec .scroll s = .next t ∧ t.grid = s.grid ∧ t.trace.length = s.trace.length + 3920

/-- R90, vectors 2.4: after `k` scrolls the rows from `25 - k` on are clear and the rows above hold what stood `k` rows
below, so after 25 every cell is clear. The space's code 0x0020 is the spec's decision D21 (log 16). -/
def Obligations.RepeatedScrollClearsFromBelow : Prop :=
  ∀ (s : State) (k : Nat), k ≤ 25 → ∀ i < 2000,
    (scroll^[k] s).cell i = if i + k * 80 < 2000 then s.cell (i + k * 80) else 0x0020

/-! ### `SYNCCUR` (43_sync_cursor.md) -/

/-- R102: in range, exactly four port writes, in order: select high, high byte, select low, low byte of the position
`column + row * 80`. -/
def Obligations.SynccurProtocol : Prop :=
  ∀ (col row : Byte) (s : State), col.toNat < 80 → row.toNat < 25 →
    ∃ t, exec (.synccur col row) s = .next t ∧
      t.trace = s.trace ++
        [.portWrite .cmd Config.platform.regCursorHigh,
         .portWrite .data (BitVec.ofNat 8 ((col.toNat + row.toNat * 80) / 256)),
         .portWrite .cmd Config.platform.regCursorLow,
         .portWrite .data (BitVec.ofNat 8 ((col.toNat + row.toNat * 80) % 256))]

/-- R104, R19: after an in-range `SYNCCUR` the low register is selected and the device's cursor is at the position. The
device's reaction is the spec's decision D11. -/
def Obligations.SynccurMovesTheDeviceCursor : Prop :=
  ∀ (col row : Byte) (s : State), col.toNat < 80 → row.toNat < 25 →
    ∃ t, exec (.synccur col row) s = .next t ∧ t.dev.index = Config.platform.regCursorLow ∧
      t.dev.cur.toNat = col.toNat + row.toNat * 80

/-- R101: a column of 80 or more, or a row of 25 or more, tested separately, makes the command a no-op. -/
def Obligations.SynccurDropsOutOfRange : Prop :=
  ∀ (col row : Byte) (s : State), 80 ≤ col.toNat ∨ 25 ≤ row.toNat → exec (.synccur col row) s = .next s

/-- R105: `SYNCCUR` touches neither the cursor nor any byte of the grid nor the host's input, and it runs alike whatever
the cursor is, which it does not read. -/
def Obligations.SynccurFrame : Prop :=
  ∀ (col row : Byte) (s t : State), exec (.synccur col row) s = .next t →
    t.col = s.col ∧ t.row = s.row ∧ s.sameInput t ∧ s.sameBytesOutside t (fun _ => False) ∧
      ∀ (c : Fin 80) (r : Fin 25),
        exec (.synccur col row) { s with col := c, row := r } = .next { t with col := c, row := r }

/-- R149, R104: between the two data writes the device's cursor is the new high byte joined to the old low byte. The
device's reaction is the spec's decision D11 (log 13). -/
def Obligations.TornDeviceCursor : Prop :=
  ∀ (col row : Byte) (s : State), col.toNat < 80 → row.toNat < 25 →
    ∃ t, exec (.synccur col row) s = .next t ∧
      ∀ k, k = 2 ∨ k = 3 →
        (replayDevice s.dev ((s.newEvents t).take k)).cur =
          BitVec.ofNat 8 ((col.toNat + row.toNat * 80) / 256) ++ s.dev.curLo

/-! ### `WRTEXT` (44_write_text.md) -/

/-- R112, R113, R115, R116: with a zero byte at index `z` before the cap and none before it, `WRTEXT` reads the bytes 0 to
`z` in order and writes the `z` bytes before the zero byte: right after its read, byte `j` is written as `0x0F00 + b` at the
cursor after `j` moves; the zero byte is not written and does not move the cursor. The colour numbers are the spec's
decision D6 (log 16). -/
def Obligations.WrtextStopsAtTheZeroByte : Prop :=
  ∀ (len : BitVec 32) (s : State) (z : Nat), z < len.toNat → s.text[z]? = some 0#8 →
    (∀ j < z, s.text[j]? ≠ some 0#8) →
      ∃ t, exec (.wrtext len) s = .next t ∧ t.cursor = nextCursor^[z] s.cursor ∧
        portWriteCount (s.newEvents t) = 4 * z ∧
        (textReads (s.newEvents t)).length = z + 1 ∧
        (∀ j ≤ z, ∀ b, s.text[j]? = some b → (textReads (s.newEvents t))[j]? = some (j, b)) ∧
        ∀ j < z, ∀ b, s.text[j]? = some b →
          [.textRead j b,
            .cellWrite ((nextCursor^[j] s.cursor).1 + (nextCursor^[j] s.cursor).2 * 80) (0x0F00 + b.setWidth 16)]
            <:+: s.newEvents t

/-- R112, R113, R115, R116: with no zero byte before the cap, `WRTEXT` reads the bytes 0 to `len - 1` in order, and no byte
at index `len`, and writes all `len` bytes: right after its read, byte `j` is written as `0x0F00 + b` at the cursor after
`j` moves. The colour numbers are the spec's decision D6 (log 16). -/
def Obligations.WrtextStopsAtTheCap : Prop :=
  ∀ (len : BitVec 32) (s : State), len.toNat ≤ s.text.length → (∀ j < len.toNat, s.text[j]? ≠ some 0#8) →
    ∃ t, exec (.wrtext len) s = .next t ∧ t.cursor = nextCursor^[len.toNat] s.cursor ∧
      portWriteCount (s.newEvents t) = 4 * len.toNat ∧
      (textReads (s.newEvents t)).length = len.toNat ∧
      (∀ j < len.toNat, ∀ b, s.text[j]? = some b → (textReads (s.newEvents t))[j]? = some (j, b)) ∧
      ∀ j < len.toNat, ∀ b, s.text[j]? = some b →
        [.textRead j b,
          .cellWrite ((nextCursor^[j] s.cursor).1 + (nextCursor^[j] s.cursor).2 * 80) (0x0F00 + b.setWidth 16)]
          <:+: s.newEvents t

/-- R110, R112, R113, R114, R116, R84: every cell, the cursor, the device's cursor and the number of events after any
`WRTEXT` that has its bytes, those that pass the last cell and scroll too. With `p` the linear cursor before, `n` the bytes
written and `m` the scrolls they make, all has moved up by `m` rows: the cells before the cursor, then byte `k`, white on
black, `k` cells after the cursor, then, if there was a scroll, clear cells to the end of the grid. Each byte costs six
events, each scroll 3920, a zero byte read one. The colour numbers and the clear cell are the spec's decisions D6 and D21
(log 16), the device's reaction its decision D11 (log 13). -/
def Obligations.WrtextFillsTheScreen : Prop :=
  ∀ (len : BitVec 32) (s : State) (p n m : Nat), Instr.wellFormed s.text (.wrtext len) = true →
    p = s.col.val + s.row.val * 80 → n = (textWritten len.toNat s.text).length → m = textScrolls p n →
      ∃ t, exec (.wrtext len) s = .next t ∧
        t.col.val + t.row.val * 80 + 80 * m = p + n ∧
        (∀ i, i + 80 * m < p → t.cell i = s.cell (i + 80 * m)) ∧
        (∀ i k b, i + 80 * m = p + k → (textWritten len.toNat s.text)[k]? = some b →
          (t.cell i).toNat = 0x0F00 + b.toNat) ∧
        (∀ i, p + n ≤ i + 80 * m → t.cell i = if m = 0 ∨ 2000 ≤ i then s.cell i else 0x0020) ∧
        (textWritten len.toNat s.text ≠ [] → t.dev.cur.toNat = t.col.val + t.row.val * 80) ∧
        (s.newEvents t).length = 6 * n + 3920 * m + (if n < len.toNat then 1 else 0)

/-- R86, R116, C1: from (0, 0), after `n` characters the cursor is (`n mod 80`, `n div 80`) up to 1999 characters and
(`n mod 80`, 24) from 1920 on: (0, 24) after 2000, (1, 24) after 2001. -/
def Obligations.WrtextCursorFromTheTop : Prop :=
  ∀ (len : BitVec 32) (s : State), Instr.wellFormed s.text (.wrtext len) = true → s.cursor = (0, 0) →
    ∃ t, exec (.wrtext len) s = .next t ∧
      t.col.val = (textWritten len.toNat s.text).length % 80 ∧
      t.row.val = min ((textWritten len.toNat s.text).length / 80) 24

/-- R117: a `WRTEXT` is refused exactly when its sequence has fewer than `len` bytes and no zero byte among them. The
refusal is the spec's decision D19. -/
def Obligations.WrtextRefusedWhenTextTooShort : Prop :=
  ∀ (len : BitVec 32) (s : State),
    exec (.wrtext len) s = .refused .textTooShort ↔ s.text.length < len.toNat ∧ 0#8 ∉ s.text

/-- R116: `len = 0` does nothing at all; a zero byte first is one text read and nothing else. -/
def Obligations.WrtextThatWritesNothing : Prop :=
  (∀ s : State, exec (.wrtext 0) s = .next s) ∧
  ∀ (len : BitVec 32) (s : State) (rest : List Byte), 0 < len.toNat → s.text = 0#8 :: rest →
    exec (.wrtext len) s = .next { s with trace := s.trace ++ [.textRead 0 0] }

/-- R110, R45: what a `WRTEXT` leaves alone: the host's input, its own text included, and every byte outside the grid; while
it does not reach the last cell, every byte but those of the cells it writes; and, when it writes no character, the cursor
and the device. -/
def Obligations.WrtextFrame : Prop :=
  ∀ (len : BitVec 32) (s t : State), exec (.wrtext len) s = .next t →
    s.sameInput t ∧ s.sameBytesOutside t (fun a => a < 4000) ∧
      (s.col.val + s.row.val * 80 + (textWritten len.toNat s.text).length < 2000 →
        s.sameBytesOutside t (fun a => 2 * (s.col.val + s.row.val * 80) ≤ a ∧
          a < 2 * (s.col.val + s.row.val * 80 + (textWritten len.toNat s.text).length))) ∧
      (textWritten len.toNat s.text = [] → t.cursor = s.cursor ∧ t.dev = s.dev)

/-- R110, R112, R113, R115, R116: a `WRTEXT` that has its bytes is, byte by byte, the read `TR(k, b)` and then the command
`PUTC b, 15, 0` with all its events, scrolls too, in the state the bytes before it left; a zero byte that ends it is read
last and does nothing more. `u k` is the state in which byte `k` is about to be read. The colour numbers are the spec's
decision D6 (log 16). -/
def Obligations.WrtextIsReadsAndPutcs : Prop :=
  ∀ (len : BitVec 32) (s : State) (n : Nat), Instr.wellFormed s.text (.wrtext len) = true →
    n = (textWritten len.toNat s.text).length →
      ∃ (t : State) (u : Nat → State), exec (.wrtext len) s = .next t ∧ u 0 = s ∧
        (∀ k b, (textWritten len.toNat s.text)[k]? = some b →
          exec (.putc b 15 0) ((u k).emit (.textRead k b)) = .next (u (k + 1)) ∧
          (u k).newEvents (u (k + 1)) = .textRead k b :: ((u k).emit (.textRead k b)).newEvents (u (k + 1))) ∧
        t = (if n < len.toNat then (u n).emit (.textRead n 0) else u n) ∧
        s.newEvents t = (List.range n).flatMap (fun k => (u k).newEvents (u (k + 1))) ++
          (if n < len.toNat then [.textRead n 0] else [])
end

