-- ==== Sys2Proof/Laws/State.lean ====
section
/-! SUPPORT. One lemma per field per update of the state, each true by definition, so that no proof unfolds a record
update; and what a raw cell is after each update that leaves the grid alone. -/

namespace Sys2Proof.Machine

@[simp] theorem State.emit_grid (s : State) (e : Event) :
    (s.emit e).grid = s.grid := rfl
@[simp] theorem State.emit_col (s : State) (e : Event) :
    (s.emit e).col = s.col := rfl
@[simp] theorem State.emit_row (s : State) (e : Event) :
    (s.emit e).row = s.row := rfl
@[simp] theorem State.emit_dev (s : State) (e : Event) :
    (s.emit e).dev = s.dev := rfl
@[simp] theorem State.emit_trace (s : State) (e : Event) :
    (s.emit e).trace = s.trace ++ [e] := rfl
@[simp] theorem State.emit_pending (s : State) (e : Event) :
    (s.emit e).pending = s.pending := rfl
@[simp] theorem State.emit_text (s : State) (e : Event) :
    (s.emit e).text = s.text := rfl

@[simp] theorem State.setCell_col (s : State) (i : Nat) (v : CellWord) :
    (s.setCell i v).col = s.col := rfl
@[simp] theorem State.setCell_row (s : State) (i : Nat) (v : CellWord) :
    (s.setCell i v).row = s.row := rfl
@[simp] theorem State.setCell_dev (s : State) (i : Nat) (v : CellWord) :
    (s.setCell i v).dev = s.dev := rfl
@[simp] theorem State.setCell_trace (s : State) (i : Nat) (v : CellWord) :
    (s.setCell i v).trace = s.trace := rfl
@[simp] theorem State.setCell_pending (s : State) (i : Nat) (v : CellWord) :
    (s.setCell i v).pending = s.pending := rfl
@[simp] theorem State.setCell_text (s : State) (i : Nat) (v : CellWord) :
    (s.setCell i v).text = s.text := rfl

@[simp] theorem State.writeCell_grid (s : State) (i : Nat) (v : CellWord) :
    (s.writeCell i v).grid = (s.setCell i v).grid := rfl
@[simp] theorem State.writeCell_col (s : State) (i : Nat) (v : CellWord) :
    (s.writeCell i v).col = s.col := rfl
@[simp] theorem State.writeCell_row (s : State) (i : Nat) (v : CellWord) :
    (s.writeCell i v).row = s.row := rfl
@[simp] theorem State.writeCell_dev (s : State) (i : Nat) (v : CellWord) :
    (s.writeCell i v).dev = s.dev := rfl
@[simp] theorem State.writeCell_trace (s : State) (i : Nat) (v : CellWord) :
    (s.writeCell i v).trace = s.trace ++ [.cellWrite i v] := rfl
@[simp] theorem State.writeCell_pending (s : State) (i : Nat) (v : CellWord) :
    (s.writeCell i v).pending = s.pending := rfl
@[simp] theorem State.writeCell_text (s : State) (i : Nat) (v : CellWord) :
    (s.writeCell i v).text = s.text := rfl

@[simp] theorem State.portWrite_grid (s : State) (p : Port) (v : Byte) :
    (s.portWrite p v).grid = s.grid := rfl
@[simp] theorem State.portWrite_col (s : State) (p : Port) (v : Byte) :
    (s.portWrite p v).col = s.col := rfl
@[simp] theorem State.portWrite_row (s : State) (p : Port) (v : Byte) :
    (s.portWrite p v).row = s.row := rfl
@[simp] theorem State.portWrite_dev (s : State) (p : Port) (v : Byte) :
    (s.portWrite p v).dev = s.dev.write p v := rfl
@[simp] theorem State.portWrite_trace (s : State) (p : Port) (v : Byte) :
    (s.portWrite p v).trace = s.trace ++ [.portWrite p v] := rfl
@[simp] theorem State.portWrite_pending (s : State) (p : Port) (v : Byte) :
    (s.portWrite p v).pending = s.pending := rfl
@[simp] theorem State.portWrite_text (s : State) (p : Port) (v : Byte) :
    (s.portWrite p v).text = s.text := rfl

@[simp] theorem State.setCursor_grid (s : State) (c r : Nat) :
    (s.setCursor c r).grid = s.grid := rfl
@[simp] theorem State.setCursor_col (s : State) (c r : Nat) :
    (s.setCursor c r).col = Fin.ofNat 80 c := rfl
@[simp] theorem State.setCursor_row (s : State) (c r : Nat) :
    (s.setCursor c r).row = Fin.ofNat 25 r := rfl
@[simp] theorem State.setCursor_dev (s : State) (c r : Nat) :
    (s.setCursor c r).dev = s.dev := rfl
@[simp] theorem State.setCursor_trace (s : State) (c r : Nat) :
    (s.setCursor c r).trace = s.trace := rfl
@[simp] theorem State.setCursor_pending (s : State) (c r : Nat) :
    (s.setCursor c r).pending = s.pending := rfl
@[simp] theorem State.setCursor_text (s : State) (c r : Nat) :
    (s.setCursor c r).text = s.text := rfl

@[simp] theorem State.issue_grid (s : State) (c : Command) (rest : List Command) :
    (s.issue c rest).grid = s.grid := rfl
@[simp] theorem State.issue_col (s : State) (c : Command) (rest : List Command) :
    (s.issue c rest).col = s.col := rfl
@[simp] theorem State.issue_row (s : State) (c : Command) (rest : List Command) :
    (s.issue c rest).row = s.row := rfl
@[simp] theorem State.issue_dev (s : State) (c : Command) (rest : List Command) :
    (s.issue c rest).dev = s.dev := rfl
@[simp] theorem State.issue_trace (s : State) (c : Command) (rest : List Command) :
    (s.issue c rest).trace = s.trace := rfl
@[simp] theorem State.issue_pending (s : State) (c : Command) (rest : List Command) :
    (s.issue c rest).pending = rest := rfl
@[simp] theorem State.issue_text (s : State) (c : Command) (rest : List Command) :
    (s.issue c rest).text = c.bytes := rfl

@[simp] theorem State.emit_cell (s : State) (e : Event) (i : Nat) :
    (s.emit e).cell i = s.cell i := rfl
@[simp] theorem State.portWrite_cell (s : State) (p : Port) (v : Byte) (i : Nat) :
    (s.portWrite p v).cell i = s.cell i := rfl
@[simp] theorem State.setCursor_cell (s : State) (c r : Nat) (i : Nat) :
    (s.setCursor c r).cell i = s.cell i := rfl
@[simp] theorem State.issue_cell (s : State) (c : Command) (rest : List Command) (i : Nat) :
    (s.issue c rest).cell i = s.cell i := rfl

@[simp] theorem State.writeCell_cell (s : State) (j : Nat) (v : CellWord) (i : Nat) :
    (s.writeCell j v).cell i = (s.setCell j v).cell i := rfl

@[simp] theorem State.readCell_fst (s : State) (i : Nat) : (s.readCell i).1 = s.cell i := rfl
@[simp] theorem State.readCell_snd (s : State) (i : Nat) : (s.readCell i).2 = s.emit (.cellRead i (s.cell i)) := rfl

/-- Cells depend on the grid alone. -/
theorem State.cell_congr {s t : State} (h : s.grid = t.grid) (i : Nat) : s.cell i = t.cell i := by
  simp only [State.cell, h]

end Sys2Proof.Machine
end

