-- ==== Sys2Proof/Laws/Memory.lean ====
section
/-! SUPPORT. The grid's memory: a read after a write gives what was written, other bytes keep theirs, every write keeps the
canonical form, and canonical memories that read alike are equal. -/

namespace Sys2Proof.Machine

theorem Memory.read_cons (c : Host.Cell) (m : Memory) (a : Nat) :
    Memory.read (c :: m) a = if a = c.1 then c.2 else Memory.read m a := rfl

theorem Memory.read_of_not_listed {m : Memory} {a : Nat} (h : ∀ c ∈ m, c.1 ≠ a) :
    Memory.read m a = Memory.unlisted a := by
  induction m with
  | nil => rfl
  | cons c m ih =>
    rw [Memory.read_cons, if_neg (fun e => h c List.mem_cons_self e.symm)]
    exact ih fun d hd => h d (List.mem_cons_of_mem _ hd)

theorem Memory.mem_remove {m : Memory} {a : Nat} {c : Host.Cell} :
    c ∈ Memory.remove m a ↔ c ∈ m ∧ c.1 ≠ a := by
  simp [Memory.remove]

theorem Memory.read_remove_same (m : Memory) (a : Nat) :
    Memory.read (Memory.remove m a) a = Memory.unlisted a :=
  Memory.read_of_not_listed fun _ hc => (Memory.mem_remove.mp hc).2

theorem Memory.read_remove_ne (m : Memory) {a b : Nat} (h : b ≠ a) :
    Memory.read (Memory.remove m a) b = Memory.read m b := by
  induction m with
  | nil => rfl
  | cons c m ih =>
    rw [Memory.read_cons, ← ih]
    by_cases hc : c.1 = a
    · rw [if_neg (by omega)]
      simp [Memory.remove, hc]
    · simp [Memory.remove, hc, Memory.read_cons]

theorem Memory.read_insert_same {m : Memory} {a : Nat} (v : Byte) (h : ∀ c ∈ m, c.1 ≠ a) :
    Memory.read (Memory.insert m a v) a = v := by
  induction m with
  | nil => simp [Memory.insert, Memory.read_cons]
  | cons c m ih =>
    have hc : c.1 ≠ a := h c List.mem_cons_self
    have hm := ih fun d hd => h d (List.mem_cons_of_mem _ hd)
    unfold Memory.insert
    split
    · simp [Memory.read_cons]
    · rw [Memory.read_cons, if_neg (Ne.symm hc), hm]

theorem Memory.read_insert_ne (m : Memory) {a b : Nat} (v : Byte) (h : b ≠ a) :
    Memory.read (Memory.insert m a v) b = Memory.read m b := by
  induction m with
  | nil => simp [Memory.insert, Memory.read_cons, h]
  | cons c m ih =>
    unfold Memory.insert
    split
    · rw [Memory.read_cons, if_neg h]
    · simp only [Memory.read_cons, ih]

/-- A read of the byte just written gives the value written. -/
theorem Memory.read_write_same (m : Memory) (a : Nat) (v : Byte) : Memory.read (Memory.write m a v) a = v := by
  unfold Memory.write
  split
  · rename_i h
    rw [Memory.read_remove_same, h]
  · exact Memory.read_insert_same v fun _ hc => (Memory.mem_remove.mp hc).2

/-- A write leaves every other byte alone. -/
theorem Memory.read_write_ne (m : Memory) {a b : Nat} (v : Byte) (h : b ≠ a) :
    Memory.read (Memory.write m a v) b = Memory.read m b := by
  unfold Memory.write
  split
  · exact Memory.read_remove_ne m h
  · rw [Memory.read_insert_ne _ v h, Memory.read_remove_ne m h]

theorem Memory.mem_insert {m : Memory} {a : Nat} {v : Byte} {c : Host.Cell} :
    c ∈ Memory.insert m a v ↔ c = (a, v) ∨ c ∈ m := by
  induction m with
  | nil => simp [Memory.insert]
  | cons d m ih =>
    unfold Memory.insert
    split
    · simp
    · simp only [List.mem_cons, ih]
      tauto

theorem Memory.remove_wf {m : Memory} (h : Memory.wf m) (a : Nat) : Memory.wf (Memory.remove m a) :=
  ⟨h.1.filter _, fun c hc => h.2 c (Memory.mem_remove.mp hc).1⟩

theorem Memory.insert_rising {m : Memory} {a : Nat} (v : Byte) (h : m.Pairwise (fun x y => x.1 < y.1))
    (hn : ∀ c ∈ m, c.1 ≠ a) : (Memory.insert m a v).Pairwise (fun x y => x.1 < y.1) := by
  induction m with
  | nil => simp [Memory.insert]
  | cons d m ih =>
    have hd := List.pairwise_cons.mp h
    unfold Memory.insert
    split
    · rename_i lt
      exact List.pairwise_cons.mpr ⟨fun c hc => by
        rcases List.mem_cons.mp hc with rfl | hc
        · exact lt
        · exact lt.trans (hd.1 c hc), h⟩
    · rename_i nlt
      have ne := hn d List.mem_cons_self
      refine List.pairwise_cons.mpr ⟨fun c hc => ?_, ih hd.2 fun c hc => hn c (List.mem_cons_of_mem _ hc)⟩
      rcases Memory.mem_insert.mp hc with rfl | hc
      · show d.1 < a
        omega
      · exact hd.1 c hc

/-- Every write inside the grid keeps the canonical form. -/
theorem Memory.write_wf {m : Memory} (h : Memory.wf m) {a : Nat} (ha : a < 4000) (v : Byte) :
    Memory.wf (Memory.write m a v) := by
  unfold Memory.write
  have hr := Memory.remove_wf h a
  split
  · exact hr
  · rename_i ne
    refine ⟨Memory.insert_rising v hr.1 fun _ hc => (Memory.mem_remove.mp hc).2, fun c hc => ?_⟩
    rcases Memory.mem_insert.mp hc with rfl | hc
    · exact ⟨ha, ne⟩
    · exact hr.2 c hc

theorem Memory.wf_tail {c : Host.Cell} {m : Memory} (h : Memory.wf (c :: m)) : Memory.wf m :=
  ⟨(List.pairwise_cons.mp h.1).2, fun d hd => h.2 d (List.mem_cons_of_mem _ hd)⟩

/-- A canonical memory with a first entry reads there as no memory does whose entries all lie above it. -/
theorem Memory.read_head_ne {c : Host.Cell} {m m' : Memory} (h : Memory.wf (c :: m))
    (above : ∀ d ∈ m', c.1 < d.1) : Memory.read (c :: m) c.1 ≠ Memory.read m' c.1 := by
  rw [Memory.read_of_not_listed (m := m') fun d hd e => Nat.lt_irrefl _ (e ▸ above d hd), Memory.read_cons,
    if_pos rfl]
  exact (h.2 c List.mem_cons_self).2

theorem Memory.above_of_lt {c d : Host.Cell} {m : Memory} (h : Memory.wf (d :: m)) (lt : c.1 < d.1) :
    ∀ e ∈ d :: m, c.1 < e.1 := fun e he => by
  rcases List.mem_cons.mp he with rfl | he
  · exact lt
  · exact lt.trans ((List.pairwise_cons.mp h.1).1 e he)

/-- Equal memories are equal data: canonical memories that read alike are the same list. -/
theorem Memory.ext_of_wf {m m' : Memory} (h : Memory.wf m) (h' : Memory.wf m')
    (heq : ∀ a, Memory.read m a = Memory.read m' a) : m = m' := by
  induction m generalizing m' with
  | nil =>
    cases m' with
    | nil => rfl
    | cons d m' => exact absurd (heq d.1).symm (Memory.read_head_ne h' fun e he => absurd he List.not_mem_nil)
  | cons c m ih =>
    cases m' with
    | nil => exact absurd (heq c.1) (Memory.read_head_ne h fun e he => absurd he List.not_mem_nil)
    | cons d m' =>
      rcases Nat.lt_trichotomy c.1 d.1 with lt | eq | lt
      · exact absurd (heq c.1) (Memory.read_head_ne h (Memory.above_of_lt h' lt))
      · have hv := heq c.1
        rw [Memory.read_cons, Memory.read_cons, if_pos rfl, if_pos eq] at hv
        have hcd : c = d := Prod.ext eq hv
        subst hcd
        have hc := (List.pairwise_cons.mp h.1).1
        have hc' := (List.pairwise_cons.mp h'.1).1
        rw [ih (Memory.wf_tail h) (Memory.wf_tail h') fun a => ?_]
        by_cases ha : a = c.1
        · subst ha
          rw [Memory.read_of_not_listed fun e he => (hc e he).ne', Memory.read_of_not_listed fun e he => (hc' e he).ne']
        · have := heq a
          rwa [Memory.read_cons, Memory.read_cons, if_neg ha, if_neg ha] at this
      · exact absurd (heq d.1).symm (Memory.read_head_ne h' (Memory.above_of_lt h lt))

end Sys2Proof.Machine
end

