-- ==== Sys2Proof/Laws/Cell.lean ====
section
/-! SUPPORT. Cells over bytes: read-back, frame, canonical form; and the cell encoder's fields. -/

namespace Sys2Proof.Machine

/-- A 16-bit value is its high byte beside its low byte. -/
theorem bytes_append (v : CellWord) : v.extractLsb' 8 8 ++ v.extractLsb' 0 8 = v :=
  BitVec.eq_of_getLsbD_eq fun k hk => by
    rw [BitVec.getLsbD_append]
    split
    · simp_all
    · simp only [BitVec.getLsbD_extractLsb', decide_eq_true (show k - 8 < 8 by omega), Bool.true_and]
      congr 1
      omega

/-- A cell just stored holds the value stored. -/
theorem State.cell_setCell_same (s : State) (i : Nat) (v : CellWord) : (s.setCell i v).cell i = v := by
  simp only [State.cell, State.setCell]
  rw [Memory.read_write_same, Memory.read_write_ne _ _ (by omega), Memory.read_write_same]
  exact bytes_append v

/-- Storing a cell leaves every other cell alone. -/
theorem State.cell_setCell_ne (s : State) {i j : Nat} (v : CellWord) (h : j ≠ i) :
    (s.setCell i v).cell j = s.cell j := by
  simp only [State.cell, State.setCell]
  rw [Memory.read_write_ne _ _ (by omega), Memory.read_write_ne _ _ (by omega), Memory.read_write_ne _ _ (by omega),
    Memory.read_write_ne _ _ (by omega)]

theorem State.cell_setCell (s : State) (i j : Nat) (v : CellWord) :
    (s.setCell i v).cell j = if i = j then v else s.cell j := by
  split
  · subst_vars
    exact s.cell_setCell_same _ v
  · exact s.cell_setCell_ne v fun h => by simp_all

/-- A cell none of whose bytes is listed reads as its boot content (R21). -/
theorem unlisted_cell (i : Nat) : Memory.unlisted (2 * i + 1) ++ Memory.unlisted (2 * i) = Config.bootCell i := by
  have h1 : Memory.unlisted (2 * i) = (Config.bootCell i).extractLsb' 0 8 := by
    rw [Memory.unlisted, if_pos (by omega), show 2 * i / 2 = i by omega]
  have h2 : Memory.unlisted (2 * i + 1) = (Config.bootCell i).extractLsb' 8 8 := by
    rw [Memory.unlisted, if_neg (by omega), show (2 * i + 1) / 2 = i by omega]
  rw [h1, h2, bytes_append]

/-- Storing a cell of the grid keeps the canonical form. -/
theorem State.setCell_wf {s : State} (h : Memory.wf s.grid) {i : Nat} (hi : i < 2000) (v : CellWord) :
    Memory.wf (s.setCell i v).grid :=
  Memory.write_wf (Memory.write_wf h (by omega) _) (by omega) _

/-- Grids in canonical form with equal cells are equal data. -/
theorem State.grid_ext {s t : State} (hs : Memory.wf s.grid) (ht : Memory.wf t.grid)
    (h : ∀ i, s.cell i = t.cell i) : s.grid = t.grid := by
  refine Memory.ext_of_wf hs ht fun a => ?_
  have lo {x y x' y' : Byte} (e : x ++ y = x' ++ y') : x = x' ∧ y = y' := by
    have hx := congrArg (BitVec.extractLsb' 8 8) e
    have hy := congrArg (BitVec.extractLsb' 0 8) e
    rw [BitVec.extractLsb'_append_eq_left, BitVec.extractLsb'_append_eq_left] at hx
    rw [BitVec.extractLsb'_append_eq_right, BitVec.extractLsb'_append_eq_right] at hy
    exact ⟨hx, hy⟩
  have hc := lo (h (a / 2))
  rcases Nat.mod_two_eq_zero_or_one a with even | odd
  · rw [show a = 2 * (a / 2) by omega]
    exact hc.2
  · rw [show a = 2 * (a / 2) + 1 by omega]
    exact hc.1

end Sys2Proof.Machine
end

