-- ==== Sys2Proof/Laws/Procedures.lean ====
section
/-! SUPPORT. One account of each shared procedure: what it does to every cell, to the trace and to the registers. A proof
about a command cites these and does not unfold a procedure. -/

namespace Sys2Proof.Machine

/-! ### `WriteCellAt` -/

theorem writeCellAt_of_lt {pos : Nat} (h : pos < 2000) (ch : Byte) (fg bg : ColorBits) (s : State) :
    writeCellAt ch fg bg pos s = s.writeCell pos (encodeCell ch fg bg) := by
  simp [writeCellAt, posInGrid, h]

theorem writeCellAt_of_ge {pos : Nat} (h : 2000 ≤ pos) (ch : Byte) (fg bg : ColorBits) (s : State) :
    writeCellAt ch fg bg pos s = s := by
  simp [writeCellAt, posInGrid, h]

/-! ### `Scroll` -/

theorem copyCell_eq (src dst : Nat) (s : State) :
    copyCell src dst s = (s.emit (.cellRead src (s.cell src))).writeCell dst (s.cell src) := rfl

/-- After `n` steps of the shift the first `n` cells hold what stood one row below, the others what they held (R91). -/
theorem shiftCells_cell (n : Nat) (s : State) (i : Nat) :
    (shiftCells n s).cell i = if i < n then s.cell (i + 80) else s.cell i := by
  induction n generalizing i with
  | zero => simp [shiftCells]
  | succ n ih =>
    rw [shiftCells, copyCell_eq, State.writeCell_cell, State.cell_setCell, State.emit_cell, ih, ih]
    by_cases h : n = i
    · subst h
      simp
    · simp only [h, if_false, show (i < n + 1) = (i < n) from propext (by omega)]

/-- The events of the first `n` steps of the shift (R90, R91). -/
theorem shiftCells_trace (n : Nat) (s : State) :
    (shiftCells n s).trace = s.trace ++
      (List.range n).flatMap (fun i => [.cellRead (i + 80) (s.cell (i + 80)), .cellWrite i (s.cell (i + 80))]) := by
  induction n with
  | zero => simp [shiftCells]
  | succ n ih =>
    rw [shiftCells, copyCell_eq, State.writeCell_trace, State.emit_trace, ih, List.range_succ, List.flatMap_append,
      shiftCells_cell, if_neg (by omega)]
    simp

theorem shiftCells_frame (n : Nat) (s : State) :
    (shiftCells n s).col = s.col ∧ (shiftCells n s).row = s.row ∧ (shiftCells n s).dev = s.dev ∧
      (shiftCells n s).pending = s.pending ∧ (shiftCells n s).text = s.text := by
  induction n with
  | zero => simp [shiftCells]
  | succ n ih => simpa [shiftCells, copyCell_eq] using ih

theorem clearCells_succ {n : Nat} (h : n < 80) (s : State) :
    clearCells (n + 1) s = (clearCells n s).writeCell (1920 + n) clearCell := by
  rw [clearCells, writeCellAt_of_lt (by omega)]
  rfl

/-- After `n` clearing writes the first `n` cells of the last row are clear, the others hold what they held (R92). -/
theorem clearCells_cell {n : Nat} (h : n ≤ 80) (s : State) (i : Nat) :
    (clearCells n s).cell i = if 1920 ≤ i ∧ i < 1920 + n then clearCell else s.cell i := by
  induction n with
  | zero => simp [clearCells]
  | succ n ih =>
    rw [clearCells_succ (by omega), State.writeCell_cell, State.cell_setCell, ih (by omega)]
    by_cases e : 1920 + n = i
    · rw [if_pos e, if_pos (by omega)]
    · simp only [if_neg e, show (1920 ≤ i ∧ i < 1920 + (n + 1)) = (1920 ≤ i ∧ i < 1920 + n) from propext (by omega)]

theorem clearCells_trace {n : Nat} (h : n ≤ 80) (s : State) :
    (clearCells n s).trace = s.trace ++ (List.range n).map (fun j => .cellWrite (1920 + j) clearCell) := by
  induction n with
  | zero => simp [clearCells]
  | succ n ih =>
    rw [clearCells_succ (by omega), State.writeCell_trace, ih (by omega), List.range_succ, List.map_append]
    simp

theorem clearCells_frame {n : Nat} (h : n ≤ 80) (s : State) :
    (clearCells n s).col = s.col ∧ (clearCells n s).row = s.row ∧ (clearCells n s).dev = s.dev ∧
      (clearCells n s).pending = s.pending ∧ (clearCells n s).text = s.text := by
  induction n with
  | zero => simp [clearCells]
  | succ n ih => simpa [clearCells_succ (show n < 80 by omega)] using ih (by omega)

/-- The end state of a scroll, cell by cell (R90). -/
theorem scroll_cell (s : State) (i : Nat) :
    (scroll s).cell i = if i < 1920 then s.cell (i + 80) else if i < 2000 then clearCell else s.cell i := by
  rw [scroll, clearCells_cell (Nat.le_refl _), shiftCells_cell]
  by_cases h : i < 1920
  · rw [if_neg (by omega), if_pos h, if_pos h]
  · by_cases h' : i < 2000
    · rw [if_pos (by omega), if_neg h, if_pos h']
    · rw [if_neg (by omega), if_neg h, if_neg h, if_neg h']

/-- The events of a scroll (R90, R95). -/
theorem scroll_trace (s : State) : (scroll s).trace = s.trace ++ scrollEvents s.cell := by
  rw [scroll, clearCells_trace (Nat.le_refl _), shiftCells_trace, List.append_assoc, scrollEvents]

/-- A scroll touches neither the cursor nor the device nor the host's input (R93). -/
theorem scroll_frame (s : State) :
    (scroll s).col = s.col ∧ (scroll s).row = s.row ∧ (scroll s).dev = s.dev ∧
      (scroll s).pending = s.pending ∧ (scroll s).text = s.text := by
  have hs := shiftCells_frame 1920 s
  have hc := clearCells_frame (Nat.le_refl 80) (shiftCells 1920 s)
  exact ⟨hc.1.trans hs.1, hc.2.1.trans hs.2.1, hc.2.2.1.trans hs.2.2.1, hc.2.2.2.1.trans hs.2.2.2.1,
    hc.2.2.2.2.trans hs.2.2.2.2⟩

theorem shiftEvents_length (n : Nat) (old : Nat → CellWord) :
    ((List.range n).flatMap (fun i => [Event.cellRead (i + 80) (old (i + 80)), .cellWrite i (old (i + 80))])).length =
      n * 2 := by
  simp [List.length_flatMap]

/-- A scroll makes exactly 3920 events (R95). -/
theorem scrollEvents_length (old : Nat → CellWord) : (scrollEvents old).length = 3920 := by
  rw [scrollEvents, List.length_append, shiftEvents_length, List.length_map, List.length_range]

/-! ### `SyncCursor` -/

theorem syncCursor_of_in_range {col row : Nat} (hc : col < 80) (hr : row < 25) (s : State) :
    syncCursor col row s = sendPosition (devicePos col row) s := by
  simp [syncCursor, cursorOutOfRange, hc, hr]

theorem syncCursor_of_out_of_range {col row : Nat} (h : 80 ≤ col ∨ 25 ≤ row) (s : State) :
    syncCursor col row s = s := by
  simp [syncCursor, cursorOutOfRange, h]

theorem sendPosition_trace (p : BitVec 16) (s : State) : (sendPosition p s).trace = s.trace ++ syncEvents p := by
  simp [sendPosition, syncEvents]

/-- After the four port writes the low register is selected and both cursor bytes hold the position (R104). -/
theorem sendPosition_dev (p : BitVec 16) (s : State) :
    (sendPosition p s).dev =
      { index := Config.platform.regCursorLow, curHi := posHigh p, curLo := posLow p } := by
  simp [sendPosition, Device.write, Config.platform.regs_ne.symm]

@[simp] theorem sendPosition_grid (p : BitVec 16) (s : State) : (sendPosition p s).grid = s.grid := rfl
@[simp] theorem sendPosition_cell (p : BitVec 16) (s : State) (i : Nat) : (sendPosition p s).cell i = s.cell i := rfl
@[simp] theorem sendPosition_col (p : BitVec 16) (s : State) : (sendPosition p s).col = s.col := rfl
@[simp] theorem sendPosition_row (p : BitVec 16) (s : State) : (sendPosition p s).row = s.row := rfl
@[simp] theorem sendPosition_pending (p : BitVec 16) (s : State) : (sendPosition p s).pending = s.pending := rfl
@[simp] theorem sendPosition_text (p : BitVec 16) (s : State) : (sendPosition p s).text = s.text := rfl

/-- The two bytes sent, joined again, are the position. -/
theorem posHigh_append_posLow (p : BitVec 16) : posHigh p ++ posLow p = p := bytes_append p

/-- A position on the grid fits the 16 bits of the device position (R63). -/
theorem devicePos_toNat {col row : Nat} (hc : col < 80) (hr : row < 25) :
    (devicePos col row).toNat = col + row * 80 := by
  simp only [devicePos, linearPos, BitVec.toNat_ofNat]
  omega

theorem linearPos_lt (s : State) : linearPos s.col s.row < 2000 := by
  unfold linearPos
  omega

/-! ### `PutCharacter` -/

/-- The transition keeps the cursor inside the grid (R86). -/
theorem nextCursor_lt (c r : Nat) (hr : r < 25) : (nextCursor (c, r)).1 < 80 ∧ (nextCursor (c, r)).2 < 25 := by
  unfold nextCursor
  split
  · exact ⟨by simp_all; omega, hr⟩
  · split
    · exact ⟨by simp, by simp_all; omega⟩
    · decide

theorem nextCursor_in_range (s : State) : (nextCursor s.cursor).1 < 80 ∧ (nextCursor s.cursor).2 < 25 :=
  nextCursor_lt _ _ s.row.isLt

/-- All that `PutCharacter` does: the write at the cursor, the scroll exactly when it began at (79, 24), the cursor of the
table of R86, and the synchronisation with that cursor (R80 to R86). -/
theorem putCharacter_eq (ch : Byte) (fg bg : ColorBits) (s : State) :
    putCharacter ch fg bg s =
      sendPosition (devicePos (nextCursor s.cursor).1 (nextCursor s.cursor).2)
        ((if s.cursor = (79, 24) then scroll (s.writeCell (linearPos s.col s.row) (encodeCell ch fg bg))
          else s.writeCell (linearPos s.col s.row) (encodeCell ch fg bg)).setCursor
            (nextCursor s.cursor).1 (nextCursor s.cursor).2) := by
  rw [← syncCursor_of_in_range (nextCursor_in_range s).1 (nextCursor_in_range s).2]
  unfold putCharacter
  rw [writeCellAt_of_lt (linearPos_lt s)]
  have hc := s.col.isLt
  have hr := s.row.isLt
  have e : s.cursor = (s.col.val, s.row.val) := rfl
  rw [e]
  generalize s.col.val = c at *
  generalize s.row.val = r at *
  by_cases h1 : c < 79
  · have : ¬ c + 1 = 80 := by omega
    have : ¬ r = 25 := by omega
    have : ¬ c = 79 := by omega
    simp [nextCursor, columnWraps, gridExhausted, *]
  · obtain rfl : c = 79 := by omega
    by_cases h2 : r < 24
    · have : ¬ r + 1 = 25 := by omega
      have : ¬ r = 24 := by omega
      simp [nextCursor, columnWraps, gridExhausted, *]
    · obtain rfl : r = 24 := by omega
      simp [nextCursor, columnWraps, gridExhausted]

/-! ### `WriteText` -/

/-- All that the loop of `WriteText` does: the written bytes one after another, then, when a zero byte stands where the
writing stopped, the read of that byte (R110, R112). -/
theorem writeTextFrom_eq (len i : Nat) (bytes : List Byte) (s : State) :
    writeTextFrom len i bytes s =
      let written := textWritten (len - i) bytes
      let t := putText i written s
      if written.length < (bytes.take (len - i)).length then t.emit (.textRead (i + written.length) 0) else t := by
  induction bytes generalizing i s with
  | nil => simp [writeTextFrom, textWritten, putText]
  | cons b rest ih =>
    unfold writeTextFrom
    by_cases h : i < len
    · obtain ⟨k, hk⟩ : ∃ k, len - i = k + 1 := ⟨len - i - 1, by omega⟩
      by_cases hb : b = 0#8
      · simp [h, hk, hb, textWritten, putText]
      · have hk' : len - (i + 1) = k := by omega
        have hw : (b :: rest.take k).takeWhile (· ≠ 0#8) = b :: (rest.take k).takeWhile (· ≠ 0#8) :=
          List.takeWhile_cons_of_pos (by simpa using hb)
        simp only [if_pos h, if_neg hb, ih, hk, hk', textWritten, List.take_succ_cons, hw, putText, List.length_cons,
          Nat.add_lt_add_iff_right]
        rw [show i + 1 + ((rest.take k).takeWhile (· ≠ 0#8)).length =
          i + (((rest.take k).takeWhile (· ≠ 0#8)).length + 1) by omega]
    · simp [h, show len - i = 0 by omega, textWritten, putText]

/-- The scan of the loop is the contract of R117. -/
theorem textFound_eq_textSuffices (len : Nat) (bytes : List Byte) : textFound len bytes = textSuffices len bytes := by
  induction bytes generalizing len with
  | nil => simp [textFound, textSuffices]
  | cons b rest ih =>
    unfold textFound
    rw [ih]
    cases len with
    | zero => rfl
    | succ n =>
      by_cases hb : b = 0#8
      · subst hb
        simp [textSuffices]
      · have hb' : (0#8 == b) = false := beq_false_of_ne fun h => hb h.symm
        simp only [textSuffices, List.take_succ_cons, List.contains_cons, List.length_cons, Nat.add_le_add_iff_right,
          Nat.add_sub_cancel, hb', decide_eq_false hb, Bool.false_or, Nat.succ_ne_zero, decide_false]

end Sys2Proof.Machine
end

