-- ==== Sys2Proof/Laws/Actions.lean ====
section
/-! SUPPORT. Said once: everything a step can do is a sequence of the primitive actions below. An invariant that each action
keeps is kept by every command and every step (`exec_acts`, `step_acts`, `Acts.keeps`). -/

namespace Sys2Proof.Machine

/-- One primitive action of the sequencer, with the bound the procedures give it. -/
inductive Act : State → State → Prop where
  | readCell (s : State) {i : Nat} (h : i < 2000) : Act s (s.readCell i).2
  | writeCell (s : State) {i : Nat} (h : i < 2000) (v : CellWord) : Act s (s.writeCell i v)
  | setCursor (s : State) (c r : Nat) : Act s (s.setCursor c r)
  | sendPosition (s : State) {p : BitVec 16} (h : p.toNat < 2000) : Act s (sendPosition p s)
  | readText (s : State) (i : Nat) (b : Byte) : Act s (s.emit (.textRead i b))
  | issue (s : State) (c : Command) (rest : List Command) : Act s (s.issue c rest)

/-- A sequence of primitive actions. -/
abbrev Acts := Relation.ReflTransGen Act

/-- What every action keeps, every sequence of actions keeps. -/
theorem Acts.keeps {P : State → Prop} (keep : ∀ s t, Act s t → P s → P t) {s t : State} (h : Acts s t) (hs : P s) :
    P t := by
  induction h with
  | refl => exact hs
  | tail _ hact ih => exact keep _ _ hact ih

theorem writeCellAt_acts (ch : Byte) (fg bg : ColorBits) (pos : Nat) (s : State) :
    Acts s (writeCellAt ch fg bg pos s) := by
  rcases Nat.lt_or_ge pos 2000 with h | h
  · rw [writeCellAt_of_lt h]
    exact .single (.writeCell s h _)
  · rw [writeCellAt_of_ge h]

theorem shiftCells_acts {n : Nat} (h : n ≤ 1920) (s : State) : Acts s (shiftCells n s) := by
  induction n with
  | zero => exact .refl
  | succ n ih =>
    exact ((ih (by omega)).tail (.readCell _ (i := n + 80) (by omega))).tail (.writeCell _ (by omega) _)

theorem clearCells_acts {n : Nat} (h : n ≤ 80) (s : State) : Acts s (clearCells n s) := by
  induction n with
  | zero => exact .refl
  | succ n ih => exact (ih (by omega)).trans (writeCellAt_acts _ _ _ _ _)

theorem scroll_acts (s : State) : Acts s (scroll s) :=
  (shiftCells_acts (Nat.le_refl _) s).trans (clearCells_acts (Nat.le_refl _) _)

theorem syncCursor_acts (col row : Nat) (s : State) : Acts s (syncCursor col row s) := by
  by_cases h : 80 ≤ col ∨ 25 ≤ row
  · rw [syncCursor_of_out_of_range h]
  · have hc : col < 80 := by omega
    have hr : row < 25 := by omega
    rw [syncCursor_of_in_range hc hr]
    exact .single (.sendPosition s (by rw [devicePos_toNat hc hr]; omega))

theorem putCharacter_acts (ch : Byte) (fg bg : ColorBits) (s : State) : Acts s (putCharacter ch fg bg s) := by
  rw [putCharacter_eq, ← syncCursor_of_in_range (nextCursor_in_range s).1 (nextCursor_in_range s).2]
  have hw : Acts s (s.writeCell (linearPos s.col s.row) (encodeCell ch fg bg)) :=
    .single (.writeCell s (linearPos_lt s) _)
  refine .trans (.tail ?_ (.setCursor _ _ _)) (syncCursor_acts _ _ _)
  split
  · exact hw.trans (scroll_acts _)
  · exact hw

theorem putText_acts (i : Nat) (bytes : List Byte) (s : State) : Acts s (putText i bytes s) := by
  induction bytes generalizing i s with
  | nil => exact .refl
  | cons b rest ih => exact .trans (.head (.readText s i b) (putCharacter_acts _ _ _ _)) (ih _ _)

theorem writeTextFrom_acts (len i : Nat) (bytes : List Byte) (s : State) : Acts s (writeTextFrom len i bytes s) := by
  rw [writeTextFrom_eq]
  dsimp only
  split
  · exact (putText_acts _ _ _).tail (.readText _ _ _)
  · exact putText_acts _ _ _

/-- A command that answers a next state got there by primitive actions. -/
theorem exec_acts {i : Instr} {s t : State} (h : exec i s = .next t) : Acts s t := by
  cases i with
  | wrcell ch fg bg pos =>
    cases h
    exact writeCellAt_acts _ _ _ _ _
  | putc ch fg bg =>
    cases h
    exact putCharacter_acts _ _ _ _
  | scroll =>
    cases h
    exact scroll_acts _
  | synccur col row =>
    cases h
    exact syncCursor_acts _ _ _
  | wrtext len =>
    simp only [exec, execWrtext] at h
    split at h
    · cases h
      exact writeTextFrom_acts _ _ _ _
    · cases h

/-- Everything a step can do: stay idle, drop a reserved word, or run the decoded command. -/
theorem step_cases {s t : State} (h : step s = .next t) :
    (s.pending = [] ∧ t = s) ∨
    (∃ c rest r, s.pending = c :: rest ∧ decode c.word = .error r ∧ t = s.issue c rest) ∨
    (∃ c rest i, s.pending = c :: rest ∧ decode c.word = .ok i ∧ exec i (s.issue c rest) = .next t) := by
  unfold step at h
  split at h
  · cases h
    exact .inl ⟨‹_›, rfl⟩
  · split at h
    · exact .inr (.inr ⟨_, _, _, ‹_›, ‹_›, h⟩)
    · cases h
      exact .inr (.inl ⟨_, _, _, ‹_›, ‹_›, rfl⟩)

/-- A step that answers a next state got there by primitive actions. -/
theorem step_acts {s t : State} (h : step s = .next t) : Acts s t := by
  rcases step_cases h with ⟨_, rfl⟩ | ⟨c, rest, _, _, _, rfl⟩ | ⟨c, rest, _, _, _, h⟩
  · exact .refl
  · exact .single (.issue s c rest)
  · exact .head (.issue s c rest) (exec_acts h)

end Sys2Proof.Machine
end

