-- ==== Sys2Proof/Laws/Decode.lean ====
section
/-! SUPPORT. What the decoder can answer, said once, and the bits of a word built from placed fields. -/

namespace Sys2Proof

/-- A bit of a field placed at `lo`. -/
theorem getLsbD_place {n : Nat} (field : BitVec n) (lo k : Nat) (hk : k < 40) :
    (place field lo).getLsbD k = (decide (lo ≤ k) && field.getLsbD (k - lo)) := by
  by_cases hl : lo ≤ k
  · simp [place, hk, hl, Nat.not_lt.mpr hl]
  · simp [place, hl, Nat.lt_of_not_le hl]

/-- Every word the decoder reads as a command: its opcode, the zero fields of its format, and the command. -/
theorem decode_ok {w : CmdWord} {i : Instr} (h : decode w = .ok i) :
    (opcodeField w = 0x01#8 ∧ i = .wrcell (lowField w) (fgField w) (bgField w) (upperField w)) ∨
    (opcodeField w = 0x02#8 ∧ upperField w = 0#16 ∧ i = .putc (lowField w) (fgField w) (bgField w)) ∨
    (opcodeField w = 0x03#8 ∧ argField w = 0#32 ∧ i = .scroll) ∨
    (opcodeField w = 0x04#8 ∧ upperField w = 0#16 ∧ i = .synccur (lowField w) (rowField w)) ∨
    (opcodeField w = 0x05#8 ∧ i = .wrtext (argField w)) := by
  unfold decode at h
  split at h
  · cases h
    exact .inl ⟨‹_›, rfl⟩
  split at h
  · split at h
    · cases h
      exact .inr (.inl ⟨‹_›, ‹_›, rfl⟩)
    · cases h
  split at h
  · split at h
    · cases h
      exact .inr (.inr (.inl ⟨‹_›, ‹_›, rfl⟩))
    · cases h
  split at h
  · split at h
    · cases h
      exact .inr (.inr (.inr (.inl ⟨‹_›, ‹_›, rfl⟩)))
    · cases h
  split at h
  · cases h
    exact .inr (.inr (.inr (.inr ⟨‹_›, rfl⟩)))
  · cases h

end Sys2Proof
end

