-- ==== Sys2Proof/Laws/Invariants.lean ====
section
/-! SUPPORT. What each primitive action does to the trace and to the things the invariants of Safety speak of, and the
replay functions at the end of a trace. -/

namespace Sys2Proof.Machine

@[simp] theorem replayCell_append (t u : List Event) (i : Nat) :
    replayCell (t ++ u) i = u.foldl (Event.onCell i) (replayCell t i) := by
  simp [replayCell]

@[simp] theorem replayDevice_append (d : Device) (t u : List Event) :
    replayDevice d (t ++ u) = replayDevice (replayDevice d t) u := by
  simp [replayDevice]

/-- The device after a synchronisation's four port writes is the device after its four events. -/
theorem sendPosition_dev_replay (p : BitVec 16) (s : State) :
    (sendPosition p s).dev = replayDevice s.dev (syncEvents p) := rfl

/-- An action adds its events at the end of the trace: one event, four port writes, or none. -/
theorem Act.trace_append {s t : State} (h : Act s t) : ∃ u, t.trace = s.trace ++ u := by
  cases h with
  | readCell h => exact ⟨_, rfl⟩
  | writeCell h v => exact ⟨_, rfl⟩
  | setCursor c r => exact ⟨[], by simp⟩
  | sendPosition h => exact ⟨_, sendPosition_trace _ _⟩
  | readText i b => exact ⟨_, rfl⟩
  | issue c rest => exact ⟨[], by simp⟩

/-- A sequence of actions only adds events at the end of the trace. -/
theorem Acts.trace_append {s t : State} (h : Acts s t) : ∃ u, t.trace = s.trace ++ u := by
  induction h with
  | refl => exact ⟨[], by simp⟩
  | tail _ hact ih =>
    obtain ⟨u, hu⟩ := ih
    obtain ⟨v, hv⟩ := hact.trace_append
    exact ⟨u ++ v, by rw [hv, hu, List.append_assoc]⟩

@[simp] theorem State.newEvents_of_append {s t : State} {u : List Event} (h : t.trace = s.trace ++ u) :
    s.newEvents t = u := by
  simp [State.newEvents, h]

end Sys2Proof.Machine
end

