-- ==== Sys2Proof/Laws/PutText.lean ====
section
/-! SUPPORT. `PutCharacter` and the loop of `WriteText` field by field: cells, cursor, device, trace, host input. -/

namespace Sys2Proof.Machine

theorem State.setCursor_cursor {c r : Nat} (hc : c < 80) (hr : r < 25) (s : State) :
    (s.setCursor c r).cursor = (c, r) := by
  simp only [State.cursor, State.setCursor, Fin.ofNat, Nat.mod_eq_of_lt hc, Nat.mod_eq_of_lt hr]

@[simp] theorem sendPosition_cursor (p : BitVec 16) (s : State) : (sendPosition p s).cursor = s.cursor := rfl

/-- The cursor after a `PutCharacter` is the one of the table of R86. -/
theorem putCharacter_cursor (ch : Byte) (fg bg : ColorBits) (s : State) :
    (putCharacter ch fg bg s).cursor = nextCursor s.cursor := by
  rw [putCharacter_eq, sendPosition_cursor, State.setCursor_cursor (nextCursor_in_range s).1 (nextCursor_in_range s).2]

/-- The device after a `PutCharacter` (R85, R104). -/
theorem putCharacter_dev (ch : Byte) (fg bg : ColorBits) (s : State) :
    (putCharacter ch fg bg s).dev =
      { index := Config.platform.regCursorLow
        curHi := posHigh (devicePos (nextCursor s.cursor).1 (nextCursor s.cursor).2)
        curLo := posLow (devicePos (nextCursor s.cursor).1 (nextCursor s.cursor).2) } := by
  rw [putCharacter_eq, sendPosition_dev]

/-- The cells after a `PutCharacter` that does not scroll (R82, R83). -/
theorem putCharacter_cell {s : State} (h : s.cursor ≠ (79, 24)) (ch : Byte) (fg bg : ColorBits) (i : Nat) :
    (putCharacter ch fg bg s).cell i = if linearPos s.col s.row = i then encodeCell ch fg bg else s.cell i := by
  rw [putCharacter_eq, if_neg h, sendPosition_cell, State.setCursor_cell, State.writeCell_cell, State.cell_setCell]

/-- The grid's bytes after a `PutCharacter` that does not scroll. -/
theorem putCharacter_grid {s : State} (h : s.cursor ≠ (79, 24)) (ch : Byte) (fg bg : ColorBits) :
    (putCharacter ch fg bg s).grid = (s.setCell (linearPos s.col s.row) (encodeCell ch fg bg)).grid := by
  rw [putCharacter_eq, if_neg h]
  rfl

/-- The cells after a `PutCharacter` that scrolls (R84). -/
theorem putCharacter_cell_scroll {s : State} (h : s.cursor = (79, 24)) (ch : Byte) (fg bg : ColorBits) (i : Nat) :
    (putCharacter ch fg bg s).cell i =
      if i < 1920 then if i = 1919 then encodeCell ch fg bg else s.cell (i + 80)
      else if i < 2000 then clearCell else s.cell i := by
  have hp : linearPos s.col s.row = 1999 := by
    have h1 : s.col.val = 79 := congrArg Prod.fst h
    have h2 : s.row.val = 24 := congrArg Prod.snd h
    rw [linearPos, h1, h2]
  rw [putCharacter_eq, if_pos h, sendPosition_cell, State.setCursor_cell, scroll_cell, State.writeCell_cell,
    State.writeCell_cell, State.cell_setCell, State.cell_setCell, hp]
  by_cases h1 : i < 1920
  · simp only [h1, if_true, show (1999 = i + 80) = (i = 1919) from propext (by omega)]
  · by_cases h2 : i < 2000
    · simp only [h1, h2, if_true, if_false]
    · simp only [h1, h2, if_false, show ¬ 1999 = i by omega]

/-- The events of a `PutCharacter` (R80, R87). -/
theorem putCharacter_trace (ch : Byte) (fg bg : ColorBits) (s : State) :
    (putCharacter ch fg bg s).trace = s.trace ++
      (.cellWrite (linearPos s.col s.row) (encodeCell ch fg bg) ::
        ((if s.cursor = (79, 24) then
            scrollEvents (s.writeCell (linearPos s.col s.row) (encodeCell ch fg bg)).cell else []) ++
          syncEvents (devicePos (nextCursor s.cursor).1 (nextCursor s.cursor).2))) := by
  rw [putCharacter_eq, sendPosition_trace, State.setCursor_trace]
  by_cases h : s.cursor = (79, 24)
  · rw [if_pos h, if_pos h, scroll_trace, State.writeCell_trace]
    simp
  · rw [if_neg h, if_neg h, State.writeCell_trace]
    simp

theorem putCharacter_input (ch : Byte) (fg bg : ColorBits) (s : State) :
    (putCharacter ch fg bg s).pending = s.pending ∧ (putCharacter ch fg bg s).text = s.text := by
  have h := scroll_frame (s.writeCell (linearPos s.col s.row) (encodeCell ch fg bg))
  rw [putCharacter_eq, sendPosition_pending, sendPosition_text, State.setCursor_pending, State.setCursor_text]
  by_cases hs : s.cursor = (79, 24)
  · rw [if_pos hs, h.2.2.2.1, h.2.2.2.2]
    exact ⟨rfl, rfl⟩
  · rw [if_neg hs]
    exact ⟨rfl, rfl⟩

/-- The cursor after a text: the table of R86, once per byte written (R116). -/
theorem putText_cursor (i : Nat) (bytes : List Byte) (s : State) :
    (putText i bytes s).cursor = nextCursor^[bytes.length] s.cursor := by
  induction bytes generalizing i s with
  | nil => rfl
  | cons b rest ih =>
    rw [putText, ih, putCharacter_cursor, List.length_cons, Function.iterate_succ_apply]
    rfl

/-- The last byte of a text: its read, then its `PutCharacter`, in the state the bytes before it left (R110). -/
theorem putText_concat (i : Nat) (bytes : List Byte) (b : Byte) (s : State) :
    putText i (bytes ++ [b]) s =
      putCharacter b textFg textBg ((putText i bytes s).emit (.textRead (i + bytes.length) b)) := by
  induction bytes generalizing i s with
  | nil => rfl
  | cons c rest ih =>
    rw [List.cons_append, putText, ih, putText, List.length_cons, Nat.add_right_comm, Nat.add_assoc]

theorem putText_input (i : Nat) (bytes : List Byte) (s : State) :
    (putText i bytes s).pending = s.pending ∧ (putText i bytes s).text = s.text := by
  induction bytes generalizing i s with
  | nil => exact ⟨rfl, rfl⟩
  | cons b rest ih =>
    have h := putCharacter_input b textFg textBg (s.emit (.textRead i b))
    exact ⟨(ih _ _).1.trans h.1, (ih _ _).2.trans h.2⟩

/-- What a `WRTEXT` that has its bytes answers: the written bytes, then, when a zero byte ended it, the read of that byte
(R110, R112). -/
theorem exec_wrtext_of_wellFormed {len : BitVec 32} {s : State} (h : textSuffices len.toNat s.text = true) :
    exec (.wrtext len) s = .next
      (if (textWritten len.toNat s.text).length < (s.text.take len.toNat).length then
        (putText 0 (textWritten len.toNat s.text) s).emit (.textRead (textWritten len.toNat s.text).length 0)
      else putText 0 (textWritten len.toNat s.text) s) := by
  simp only [exec, execWrtext, textFound_eq_textSuffices, h, if_true, writeTextFrom_eq, Nat.sub_zero, Nat.zero_add]

end Sys2Proof.Machine
end

