-- ==== Sys2Proof/Laws/Frames.lean ====
section
/-! SUPPORT. What commands leave alone, said once for all of them: bytes outside a stored cell, bytes outside the grid, the
canonical form; and what a scroll's events are not. -/

namespace Sys2Proof.Machine

/-- Storing a cell leaves every byte but its two alone. -/
theorem State.setCell_read {i a : Nat} (h : ¬ cellBytes i a) (s : State) (v : CellWord) :
    Memory.read (s.setCell i v).grid a = Memory.read s.grid a := by
  simp only [cellBytes, not_or] at h
  show Memory.read (Memory.write (Memory.write _ _ _) _ _) _ = _
  rw [Memory.read_write_ne _ _ h.2, Memory.read_write_ne _ _ h.1]

/-- Actions leave every byte outside the grid alone (R38). -/
theorem Acts.read_outside {s t : State} (h : Acts s t) {a : Nat} (ha : 4000 ≤ a) :
    Memory.read t.grid a = Memory.read s.grid a := by
  refine Acts.keeps (P := fun u => Memory.read u.grid a = Memory.read s.grid a) ?_ h rfl
  intro u v hact hu
  cases hact with
  | writeCell hi w => rw [State.writeCell_grid, State.setCell_read (by unfold cellBytes; omega), hu]
  | readCell _ => exact hu
  | setCursor _ _ => exact hu
  | sendPosition _ => exact hu
  | readText _ _ => exact hu
  | issue _ _ => exact hu

/-- An action keeps the grid canonical. -/
theorem Act.wf {s t : State} (h : Act s t) (hs : Memory.wf s.grid) : Memory.wf t.grid := by
  cases h with
  | writeCell hi v => exact State.setCell_wf hs hi v
  | readCell _ => exact hs
  | setCursor _ _ => exact hs
  | sendPosition _ => exact hs
  | readText _ _ => exact hs
  | issue _ _ => exact hs

theorem portWriteCount_append (u v : List Event) :
    portWriteCount (u ++ v) = portWriteCount u + portWriteCount v := List.countP_append

theorem textReads_append (u v : List Event) : textReads (u ++ v) = textReads u ++ textReads v :=
  List.filterMap_append

/-- A scroll's events are cell reads and cell writes. -/
theorem scrollEvents_cases {old : Nat → CellWord} {e : Event} (h : e ∈ scrollEvents old) :
    (∃ i v, e = .cellRead i v) ∨ ∃ i v, e = .cellWrite i v := by
  rcases List.mem_append.mp h with h | h
  · obtain ⟨i, _, h⟩ := List.mem_flatMap.mp h
    rcases List.mem_cons.mp h with h | h
    · exact .inl ⟨_, _, h⟩
    · exact .inr ⟨_, _, List.mem_singleton.mp h⟩
  · obtain ⟨i, _, h⟩ := List.mem_map.mp h
    exact .inr ⟨_, _, h.symm⟩

/-- A scroll writes no port (R93). -/
theorem portWriteCount_scrollEvents (old : Nat → CellWord) : portWriteCount (scrollEvents old) = 0 :=
  List.countP_eq_zero.mpr fun _ he => by
    rcases scrollEvents_cases he with ⟨_, _, rfl⟩ | ⟨_, _, rfl⟩ <;> simp [Event.isPortWrite]

/-- A scroll reads no text. -/
theorem textReads_scrollEvents (old : Nat → CellWord) : textReads (scrollEvents old) = [] :=
  List.filterMap_eq_nil_iff.mpr fun _ he => by
    rcases scrollEvents_cases he with ⟨_, _, rfl⟩ | ⟨_, _, rfl⟩ <;> rfl

/-- The two bytes sent for an in-range position (R63, R102). -/
theorem devicePos_bytes {c r : Nat} (hc : c < 80) (hr : r < 25) :
    posHigh (devicePos c r) = BitVec.ofNat 8 ((c + r * 80) / 256) ∧
      posLow (devicePos c r) = BitVec.ofNat 8 ((c + r * 80) % 256) := by
  have hp := devicePos_toNat hc hr
  constructor <;> apply BitVec.eq_of_toNat_eq
  · simp only [posHigh, BitVec.extractLsb'_toNat, hp, Nat.shiftRight_eq_div_pow, BitVec.toNat_ofNat]
  · simp only [posLow, BitVec.extractLsb'_toNat, hp, Nat.shiftRight_eq_div_pow, BitVec.toNat_ofNat]
    omega

end Sys2Proof.Machine
end

