-- ==== Sys2Proof/Laws/PerInstr.lean ====
section
/-! SUPPORT. Per command: its word carries its row's bits of the table of R65. -/

namespace Sys2Proof.Laws.MaskMatch

/-- The word of `i`, under its row's mask, is its row's match (R65). -/
def Statement (i : Instr) : Prop := encode i &&& rowMask i = rowMatch i

theorem wrcell (ch : Byte) (fg bg : ColorBits) (pos : BitVec 16) : Statement (.wrcell ch fg bg pos) :=
  BitVec.eq_of_getLsbD_eq fun k hk => by
    simp only [encode, BitVec.getLsbD_and, BitVec.getLsbD_or, getLsbD_place _ _ k hk]
    interval_cases k <;> simp [rowMask, rowMatch]

theorem putc (ch : Byte) (fg bg : ColorBits) : Statement (.putc ch fg bg) :=
  BitVec.eq_of_getLsbD_eq fun k hk => by
    simp only [encode, BitVec.getLsbD_and, BitVec.getLsbD_or, getLsbD_place _ _ k hk]
    interval_cases k <;> simp [rowMask, rowMatch]

theorem scroll : Statement .scroll := by unfold Statement; decide

theorem synccur (col row : Byte) : Statement (.synccur col row) :=
  BitVec.eq_of_getLsbD_eq fun k hk => by
    simp only [encode, BitVec.getLsbD_and, BitVec.getLsbD_or, getLsbD_place _ _ k hk]
    interval_cases k <;> simp [rowMask, rowMatch]

theorem wrtext (len : BitVec 32) : Statement (.wrtext len) :=
  BitVec.eq_of_getLsbD_eq fun k hk => by
    simp only [encode, BitVec.getLsbD_and, BitVec.getLsbD_or, getLsbD_place _ _ k hk]
    interval_cases k <;> simp [rowMask, rowMatch]

end Sys2Proof.Laws.MaskMatch
end

