-- ==== Sys2Proof/Tests/Slice0.lean ====
section
/-! SUPPORT. Small tests, each about one step at most, with expected values from 95_test_vectors.md (named in the comments),
and, for every statement with hypotheses, a witness that meets them. -/

namespace Sys2Proof.Tests

open Sys2Proof.Machine

/-! ### Well-formedness (R117, vectors 2.6) -/

/-- 2.6: `WRTEXT 5, "ab"` without a terminator is outside the contract. -/
theorem test_wellFormed_refuses_short_text : Instr.wellFormed [0x61, 0x62] (.wrtext 5) = false := by decide
theorem test_wellFormed_terminated_text : Instr.wellFormed [0x61, 0x62, 0] (.wrtext 5) = true := by decide
theorem test_wellFormed_text_of_len : Instr.wellFormed [0x61, 0x62, 0x63] (.wrtext 3) = true := by decide
/-- A zero byte at index `len` is not read and does not help. -/
theorem test_wellFormed_zero_at_cap : Instr.wellFormed [0x61, 0] (.wrtext 1) = true := by decide
theorem test_wellFormed_empty_text : Instr.wellFormed [] (.wrtext 1) = false := by decide

/-! ### Decoding: words written out from the formats (R58 to R62, vectors 2.2 to 2.7) -/

theorem test_decode_wrcell : decode 0x0107CFFFFF = .ok (.wrcell 0xFF 15 15 1999) := by decide
/-- Op 00000001, pos 0000000001010000, bg 0001, fg 1100, ch 01011000 (R58): `WRCELL 'X', light-red, blue, 80`. -/
theorem test_decode_wrcell_fields : decode 0b0000000100000000010100000001110001011000 = .ok (.wrcell 0x58 12 1 80) := by
  decide
theorem test_decode_putc : decode 0x0200001A78 = .ok (.putc 0x78 10 1) := by decide
/-- Op 00000010, zeros, bg 0111, fg 0100, ch 01011010 (R59): `PUTC 'Z', red, light-grey`. -/
theorem test_decode_putc_fields : decode 0b0000001000000000000000000111010001011010 = .ok (.putc 0x5A 4 7) := by decide
theorem test_decode_scroll : decode 0x0300000000 = .ok .scroll := by decide
theorem test_decode_scroll_reserved : decode 0x0300000001 = .error (.field "SCROLL") := by decide
/-- Op 00000100, zeros, row 00001100, col 00101000 (R61): `SYNCCUR 40, 12`. -/
theorem test_decode_synccur : decode 0b0000010000000000000000000000110000101000 = .ok (.synccur 40 12) := by decide
theorem test_decode_synccur_rows : decode 0x0400001900 = .ok (.synccur 0 25) := by decide
theorem test_decode_wrtext : decode 0x05FFFFFFFF = .ok (.wrtext 4294967295) := by decide
theorem test_decode_reserved_opcode : decode 0xFF00000000 = .error (.opcode 0xFF) := by decide
theorem test_encode_wrcell : encode (.wrcell 0x58 12 1 2000) = 0x0107D01C58 := by decide
theorem test_encode_putc : encode (.putc 0x5A 4 7) = 0x020000745A := by decide
theorem test_encode_scroll : encode .scroll = 0x0300000000 := by decide
theorem test_encode_synccur : encode (.synccur 79 24) = 0x040000184F := by decide
theorem test_encode_wrtext : encode (.wrtext 2001) = 0x05000007D1 := by decide

theorem test_table_word_wrcell : decodeTableWord 40 0x0100000000 = some (.wrcell 0 0 0 0) := by decide
theorem test_table_word_reserved : decodeTableWord 40 0x0200010F41 = none := by decide
theorem test_table_word_scroll : decodeTableWord 40 0x0300000000 = some .scroll := by decide

/-! ### The assembler forms (R66, examples of R58 to R62) -/

theorem test_assemble_wrcell :
    assemble (.wrcell (.quoted 'A') (.name .white) (.name .black) 0) = some ⟨0x0100000F41, []⟩ := by decide
theorem test_assemble_putc :
    assemble (.putc (.quoted 'x') (.name .lightGreen) (.name .blue)) = some ⟨0x0200001A78, []⟩ := by decide
theorem test_assemble_synccur : assemble (.synccur 40 12) = some ⟨0x0400000C28, []⟩ := by decide
/-- P2: `WRTEXT 8, "Hi\0World"` is bound as written, with no zero byte added. -/
theorem test_assemble_wrtext :
    assemble (.wrtext 8 (.quoted ['H', 'i', '\x00', 'W', 'o', 'r', 'l', 'd'])) =
      some ⟨0x0500000008, [0x48, 0x69, 0x00, 0x57, 0x6F, 0x72, 0x6C, 0x64]⟩ := by decide
theorem test_assemble_too_wide : assemble (.synccur 256 0) = none := by decide

/-! ### The cell encoder (vectors 2.1) -/

theorem test_encodeCell_attr : encodeCell 0x48 10 1 = 0x1A48 := by decide
theorem test_encodeCell_bit15 : encodeCell 0x80 7 8 = 0x8780 := by decide
theorem test_decode_cell : cellChar 0x8780 = 0x80 ∧ cellFg 0x8780 = 7 ∧ cellBg 0x8780 = 8 := by decide
theorem test_clearCell : clearCell = 0x0020 := by decide
theorem test_fixed_parameters : 80 * 25 = 2000 ∧ 24 * 80 = 1920 ∧ linearPos 79 24 = 1999 := by decide

/-! ### One command (vectors 2.2 to 2.6) -/

/-- A state with the cursor somewhere and a text bound. -/
def stateAt (col : Fin 80) (row : Fin 25) (text : List Byte) : State :=
  { State.reset with col := col, row := row, text := text }

/-- 2.2: `WRCELL 'A', 15, 0, 81` stores `0x0F41` in cell 81. -/
theorem test_wrcell_stores : (writeCellAt 0x41 15 0 81 State.reset).cell 81 = 0x0F41 := by
  rw [writeCellAt_of_lt (by decide), State.writeCell_cell, State.cell_setCell_same]
  decide
/-- 2.2: position 2000 is the first that is dropped. -/
theorem test_wrcell_drops_2000 : exec (.wrcell 0x58 12 1 2000) State.reset = .next State.reset := rfl
/-- The byte order: the character of cell 81 is at offset 162, its colours at 163 (R34). -/
theorem test_wrcell_bytes :
    Memory.read (State.reset.setCell 81 0x0F41).grid 162 = 0x41 ∧
      Memory.read (State.reset.setCell 81 0x0F41).grid 163 = 0x0F := by
  constructor
  · show Memory.read (Memory.write (Memory.write _ _ _) _ _) _ = _
    rw [Memory.read_write_ne _ _ (by decide), Memory.read_write_same]
    decide
  · show Memory.read (Memory.write (Memory.write _ _ _) _ _) _ = _
    rw [Memory.read_write_same]
    decide

/-- 2.3: `PUTC 'x', 10, 1` at (5, 2): `CW(165, 0x1A78)`, then the position 166 = `0x00A6`. -/
theorem test_putc_trace :
    (putCharacter 0x78 10 1 (stateAt 5 2 [])).trace =
      [.cellWrite 165 0x1A78, .portWrite .cmd Config.platform.regCursorHigh, .portWrite .data 0x00,
       .portWrite .cmd Config.platform.regCursorLow, .portWrite .data 0xA6] := rfl
/-- 2.3: (79, 23) wraps into the last row without a scroll. -/
theorem test_putc_wraps_into_last_row :
    (putCharacter 0x41 15 0 (stateAt 79 23 [])).cursor = (0, 24) ∧
      (putCharacter 0x41 15 0 (stateAt 79 23 [])).trace.length = 5 := by decide
/-- P3: after `PUTC 'Z', 4, 7` at (79, 24) the cursor is (0, 24) and the Z stands in cell 1919. -/
theorem test_putc_scrolls :
    (putCharacter 0x5A 4 7 (stateAt 79 24 [])).cursor = (0, 24) ∧
      (putCharacter 0x5A 4 7 (stateAt 79 24 [])).cell 1919 = 0x745A := by
  constructor
  · rw [putCharacter_cursor]
    rfl
  · rw [putCharacter_cell_scroll rfl]
    decide

/-- 2.4, 42 R90 example: after a scroll cell 0 holds the old cell 80, and cell 1999 is clear. -/
theorem test_scroll_ends :
    (scroll (State.reset.setCell 80 0x0F48)).cell 0 = 0x0F48 ∧
      (scroll (State.reset.setCell 80 0x0F48)).cell 1999 = 0x0020 := by
  constructor
  · rw [scroll_cell, if_pos (by decide)]
    exact State.cell_setCell_same _ _ _
  · rw [scroll_cell, if_neg (by decide), if_pos (by decide)]
    decide
/-- 2.4: the first two events of a scroll read cell 80 and write cell 0. -/
theorem test_scroll_first_events :
    (copyCell 80 0 State.reset).trace = [.cellRead 80 (State.reset.cell 80), .cellWrite 0 (State.reset.cell 80)] := rfl

/-- 2.5: `SYNCCUR 16, 3` sends 256 = `0x0100`, high byte first. -/
theorem test_synccur_trace :
    (syncCursor 16 3 State.reset).trace =
      [.portWrite .cmd Config.platform.regCursorHigh, .portWrite .data 0x01,
       .portWrite .cmd Config.platform.regCursorLow, .portWrite .data 0x00] := rfl
/-- 2.5: (79, 25) sends nothing, although 2079 would fit 16 bits. -/
theorem test_synccur_drops : exec (.synccur 79 25) State.reset = .next State.reset := rfl

/-- P2: `WRTEXT 8, "Hi\0World"` reads bytes 0 to 2, writes two characters and ends at (2, 0). -/
theorem test_wrtext_stops_at_zero :
    textReads (writeTextFrom 8 0 [0x48, 0x69, 0x00, 0x57] State.reset).trace = [(0, 0x48), (1, 0x69), (2, 0x00)] ∧
      (writeTextFrom 8 0 [0x48, 0x69, 0x00, 0x57] State.reset).cursor = (2, 0) := by decide
/-- 2.6: `WRTEXT 5, "ab"` is refused. -/
theorem test_wrtext_refused : exec (.wrtext 5) (stateAt 0 0 [0x61, 0x62]) = .refused .textTooShort := rfl

/-! ### The step, one row of the opcode table at a time, as the first command after reset -/

theorem test_step_wrcell :
    step (State.reset.withFetchWord 40 0x0100000F41) =
      exec (.wrcell 0x41 15 0 0) { State.reset with text := [0] } := rfl
theorem test_step_wrtext_any_len :
    step (State.reset.withFetchWord 40 0x05FFFFFFFF) =
      .next { State.reset with text := [0], trace := [.textRead 0 0] } := by rfl
theorem test_step_scroll :
    step (State.reset.withFetchWord 40 0x0300000000) = .next (scroll { State.reset with text := [0] }) := rfl
theorem test_step_reserved :
    step (State.reset.withFetchWord 40 0x0600000000) = .next { State.reset with text := [0] } := rfl

/-! ### Witnesses: for every statement with hypotheses, values that meet them all -/

/-- A state about to scroll. -/
def scrollPending : State := { State.reset with pending := [⟨0x0300000000, []⟩] }

theorem witness_EncodeOfDecodedWord : decode 0x050000000C = .ok (.wrtext 12) := by decide
theorem witness_DecodeByMaskAndMatch :
    (0x0107D01C58 : CmdWord) &&& 0xFF00000000 = 0x0100000000 ∧ (0x020000745A : CmdWord) &&& 0xFFFFFF0000 = 0x0200000000 ∧
      (0x0300000000 : CmdWord) &&& 0xFFFFFFFFFF = 0x0300000000 ∧
      (0x040000FFFF : CmdWord) &&& 0xFFFFFF0000 = 0x0400000000 ∧ (0x05FFFFFFFF : CmdWord) &&& 0xFF00000000 = 0x0500000000 := by
  decide
/-- The last clause: a word that matches no row, one bit from `PUTC`. -/
theorem witness_DecodeByMaskAndMatch_reserved :
    (0x0200010000 : CmdWord) &&& 0xFF00000000 ≠ 0x0100000000 ∧ (0x0200010000 : CmdWord) &&& 0xFFFFFF0000 ≠ 0x0200000000 ∧
      (0x0200010000 : CmdWord) &&& 0xFFFFFFFFFF ≠ 0x0300000000 ∧
      (0x0200010000 : CmdWord) &&& 0xFFFFFF0000 ≠ 0x0400000000 ∧
      (0x0200010000 : CmdWord) &&& 0xFF00000000 ≠ 0x0500000000 := by decide
theorem witness_ReservedWordsHaveNoEffect :
    ({ State.reset with pending := [⟨0x0400010000, []⟩] } : State).pending = ⟨0x0400010000, []⟩ :: [] ∧
      decode 0x0400010000 = .error (.field "SYNCCUR") := by decide
theorem witness_EncodeCellLayout : encodeCell 0xFF 15 15 = 0xFFFF ∧ encodeCell 0 0 0 = 0 := by decide
theorem witness_ByteViewOfCells : 0 < 2000 ∧ 1999 < 2000 := by decide
theorem witness_StepRunsTheDecodedCommand :
    scrollPending.pending = ⟨0x0300000000, []⟩ :: [] ∧ decode 0x0300000000 = .ok .scroll := by decide
/-- N21 (log 21): a 2-byte read at an odd address gives no value. -/
theorem test_memRead_odd : State.reset.memRead (Config.platform.fbBase + 1) = none := by
  rw [State.memRead, if_neg (by have := Config.platform.fbBase_even; omega)]
theorem witness_IdleStepChangesNothing : State.reset.pending = [] := rfl
theorem witness_ResetState : 0 < 2000 ∧ 1999 < 2000 := by decide
theorem witness_StepKeepsGridCanonical :
    Memory.wf scrollPending.grid ∧ step scrollPending = .next (scroll State.reset) :=
  ⟨⟨List.Pairwise.nil, fun _ h => absurd h List.not_mem_nil⟩, rfl⟩
theorem witness_StepKeepsAccessesInBounds :
    scrollPending.accessesInBounds ∧ step scrollPending = .next (scroll State.reset) :=
  ⟨fun _ h => absurd h List.not_mem_nil, rfl⟩
theorem witness_StepKeepsGridEqualToTrace :
    scrollPending.gridIsReplay ∧ step scrollPending = .next (scroll State.reset) :=
  ⟨fun i _ => unlisted_cell i, rfl⟩
theorem witness_StepKeepsReadsCoherent :
    scrollPending.gridIsReplay ∧ scrollPending.readsAreReplay ∧ step scrollPending = .next (scroll State.reset) :=
  ⟨fun i _ => unlisted_cell i, fun before after i v h => absurd h (by simp [scrollPending, State.reset]), rfl⟩
theorem witness_StepKeepsDeviceEqualToTrace :
    scrollPending.deviceIsReplay ∧ step scrollPending = .next (scroll State.reset) := ⟨rfl, rfl⟩
theorem witness_StepKeepsPortsSynchronised :
    PortsSynchronised scrollPending.trace ∧ step scrollPending = .next (scroll State.reset) := ⟨.nil, rfl⟩
theorem witness_EveryRunIsSafe :
    Host.Core.run Sys2Proof.core 1 ({ State.reset with pending := [⟨0x0300000000, []⟩] } : State) =
      .next (scroll State.reset) := rfl
theorem witness_CommandsOnlyExtendTheTrace : exec .scroll State.reset = .next (scroll State.reset) := rfl
theorem witness_EveryWellFormedCommandCompletes :
    Instr.wellFormed (stateAt 0 0 [0x61, 0]).text (.wrtext 9) = true ∧ Instr.wellFormed [] .scroll = true := by decide
theorem witness_OnlyPutcAndWrtextMoveTheCursor :
    exec (.putc 0x41 15 0) (stateAt 5 2 []) = .next (putCharacter 0x41 15 0 (stateAt 5 2 [])) ∧
      (putCharacter 0x41 15 0 (stateAt 5 2 [])).cursor ≠ (stateAt 5 2 []).cursor := ⟨rfl, by decide⟩
theorem witness_DeviceNeverInfluencesTheBlock :
    exec (.synccur 40 12) State.reset = .next (syncCursor 40 12 State.reset) := rfl
theorem witness_ContentsNeverInfluenceTheCursor :
    (stateAt 79 24 []).sameControl { stateAt 79 24 [] with grid := [(0, 0x41)], dev := ⟨1, 2, 3⟩ } ∧
      exec .scroll (stateAt 79 24 []) = .next (scroll (stateAt 79 24 [])) := ⟨⟨rfl, rfl, rfl, rfl, rfl⟩, rfl⟩
theorem witness_WrcellStoresTheCell : (0 : BitVec 16).toNat < 2000 ∧ (1999 : BitVec 16).toNat < 2000 := by decide
theorem witness_WrcellFrame :
    exec (.wrcell 0x41 15 0 81) State.reset = .next (writeCellAt 0x41 15 0 81 State.reset) ∧
      exec (.wrcell 0x41 15 0 2000) State.reset = .next State.reset := ⟨rfl, rfl⟩
theorem witness_PutcAdvances : (stateAt 0 24 []).col.val < 79 ∧ (stateAt 78 0 []).col.val < 79 := by decide
theorem witness_PutcWraps :
    (stateAt 79 0 []).col.val = 79 ∧ (stateAt 79 0 []).row.val < 24 ∧ (stateAt 79 23 []).row.val < 24 := by decide
theorem witness_PutcScrollsAtTheLastCell : (stateAt 79 24 []).col.val = 79 ∧ (stateAt 79 24 []).row.val = 24 := by
  decide
theorem witness_PutcFrame :
    exec (.putc 0x41 15 0) (stateAt 78 24 []) = .next (putCharacter 0x41 15 0 (stateAt 78 24 [])) ∧
      (stateAt 78 24 []).cursor ≠ (79, 24) ∧ (stateAt 79 24 []).cursor = (79, 24) := ⟨rfl, by decide, rfl⟩
theorem witness_PutcOperandsNeverMoveTheCursor :
    exec (.putc 0 0 0) (stateAt 3 0 []) = .next (putCharacter 0 0 0 (stateAt 3 0 [])) ∧
      exec (.putc 0xFF 15 15) (stateAt 3 0 []) = .next (putCharacter 0xFF 15 15 (stateAt 3 0 [])) := ⟨rfl, rfl⟩
theorem witness_ScrollPreservesAndClears : 1 ≤ 1 ∧ 24 ≤ 24 ∧ 0 < 80 ∧ 79 < 80 := by decide
theorem witness_ScrollSeenMidway : State.reset.gridIsReplay := fun i _ => unlisted_cell i
theorem witness_ScrollFrame : exec .scroll (stateAt 5 2 []) = .next (scroll (stateAt 5 2 [])) := rfl

/-- A state whose whole grid is clear: the end of 25 scrolls. -/
def clearState : State := scroll^[25] State.reset

theorem iterate_scroll_clear (s : State) (k : Nat) (i : Nat) (hi : i < 2000) (h : 2000 ≤ i + k * 80) :
    (scroll^[k] s).cell i = 0x0020 := by
  induction k generalizing i with
  | zero => omega
  | succ k ih =>
    rw [Function.iterate_succ_apply', scroll_cell]
    by_cases h' : i < 1920
    · rw [if_pos h']
      exact ih _ (by omega) (by omega)
    · rw [if_neg h', if_pos hi]
      decide

theorem witness_ScrollOfClearGridKeepsIt : Memory.wf clearState.grid ∧ ∀ i < 2000, clearState.cell i = 0x0020 := by
  refine ⟨?_, fun i hi => iterate_scroll_clear _ _ _ hi (by omega)⟩
  have keep : ∀ k, Memory.wf (scroll^[k] State.reset).grid := fun k => by
    induction k with
    | zero => exact witness_StepKeepsGridCanonical.1
    | succ k ih =>
      rw [Function.iterate_succ_apply']
      exact Acts.keeps (P := fun s => Memory.wf s.grid) (fun _ _ h => h.wf) (scroll_acts _) ih
  exact keep 25

theorem witness_RepeatedScrollClearsFromBelow : 0 ≤ 25 ∧ 25 ≤ 25 ∧ 1999 < 2000 := by decide
theorem witness_SynccurInRange :
    (0 : Byte).toNat < 80 ∧ (0 : Byte).toNat < 25 ∧ (79 : Byte).toNat < 80 ∧ (24 : Byte).toNat < 25 := by decide
theorem witness_SynccurDropsOutOfRange : 80 ≤ (80 : Byte).toNat ∧ 25 ≤ (25 : Byte).toNat := by decide
theorem witness_SynccurFrame :
    exec (.synccur 79 24) State.reset = .next (syncCursor 79 24 State.reset) := rfl
theorem witness_WrtextStopsAtTheZeroByte :
    2 < (8 : BitVec 32).toNat ∧ (stateAt 0 0 [0x48, 0x69, 0, 0x57]).text[2]? = some 0#8 ∧
      (∀ j < 2, (stateAt 0 0 [0x48, 0x69, 0, 0x57]).text[j]? ≠ some 0#8) := by decide
theorem witness_WrtextStopsAtTheCap :
    (2 : BitVec 32).toNat ≤ (stateAt 0 0 [0x61, 0x62, 0]).text.length ∧
      (∀ j < (2 : BitVec 32).toNat, (stateAt 0 0 [0x61, 0x62, 0]).text[j]? ≠ some 0#8) := by decide
/-- No scroll: the text ends in cell 1998, the cell before it and cell 1999 are outside it. -/
theorem witness_WrtextFillsTheScreen :
    Instr.wellFormed (stateAt 77 24 [0x61, 0x62]).text (.wrtext 2) = true ∧
      1997 = (stateAt 77 24 [0x61, 0x62]).col.val + (stateAt 77 24 [0x61, 0x62]).row.val * 80 ∧
      2 = (textWritten (2 : BitVec 32).toNat (stateAt 77 24 [0x61, 0x62]).text).length ∧ 0 = textScrolls 1997 2 ∧
      1996 + 80 * 0 < 1997 ∧ 1998 + 80 * 0 = 1997 + 1 ∧
      (textWritten (2 : BitVec 32).toNat (stateAt 77 24 [0x61, 0x62]).text)[1]? = some 0x62#8 ∧
      1997 + 2 ≤ 1999 + 80 * 0 ∧ textWritten (2 : BitVec 32).toNat (stateAt 77 24 [0x61, 0x62]).text ≠ [] := by decide
/-- One scroll: the first byte goes to cell 1999 and ends in cell 1919, the second in cell 1920. -/
theorem witness_WrtextFillsTheScreen_scrolls :
    Instr.wellFormed (stateAt 79 24 [0x61, 0x62]).text (.wrtext 2) = true ∧
      1999 = (stateAt 79 24 [0x61, 0x62]).col.val + (stateAt 79 24 [0x61, 0x62]).row.val * 80 ∧
      2 = (textWritten (2 : BitVec 32).toNat (stateAt 79 24 [0x61, 0x62]).text).length ∧ 1 = textScrolls 1999 2 ∧
      1918 + 80 * 1 < 1999 ∧ 1919 + 80 * 1 = 1999 + 0 ∧ 1920 + 80 * 1 = 1999 + 1 ∧
      (textWritten (2 : BitVec 32).toNat (stateAt 79 24 [0x61, 0x62]).text)[1]? = some 0x62#8 ∧
      1999 + 2 ≤ 1921 + 80 * 1 := by decide
/-- 2.6 and S3: 1999 bytes from (0, 0) make no scroll, 2000 and 2001 make one, 2080 make two. -/
theorem test_textScrolls :
    textScrolls 0 1999 = 0 ∧ textScrolls 0 2000 = 1 ∧ textScrolls 0 2001 = 1 ∧ textScrolls 0 2079 = 1 ∧
      textScrolls 0 2080 = 2 := by decide
/-- A text that a zero byte ends, and one that the cap ends. -/
theorem witness_WrtextIsReadsAndPutcs :
    Instr.wellFormed (stateAt 79 24 [0x61, 0]).text (.wrtext 9) = true ∧
      1 = (textWritten (9 : BitVec 32).toNat (stateAt 79 24 [0x61, 0]).text).length ∧ 1 < (9 : BitVec 32).toNat ∧
      (textWritten (9 : BitVec 32).toNat (stateAt 79 24 [0x61, 0]).text)[0]? = some 0x61#8 ∧
      Instr.wellFormed (stateAt 79 24 [0x61, 0]).text (.wrtext 1) = true ∧
      1 = (textWritten (1 : BitVec 32).toNat (stateAt 79 24 [0x61, 0]).text).length ∧ ¬ 1 < (1 : BitVec 32).toNat := by
  decide
theorem witness_WrtextCursorFromTheTop :
    Instr.wellFormed (stateAt 0 0 [0x61, 0]).text (.wrtext 2001) = true ∧ (stateAt 0 0 [0x61, 0]).cursor = (0, 0) := by
  decide
theorem witness_WrtextRefusedWhenTextTooShort :
    (stateAt 0 0 [0x61, 0x62]).text.length < (5 : BitVec 32).toNat ∧ 0#8 ∉ (stateAt 0 0 [0x61, 0x62]).text := by decide
theorem witness_WrtextThatWritesNothing :
    0 < (3 : BitVec 32).toNat ∧ (stateAt 0 0 [0, 0x62, 0x63]).text = 0#8 :: [0x62, 0x63] := by decide
theorem witness_WrtextFrame :
    exec (.wrtext 3) (stateAt 5 2 [0]) = .next { stateAt 5 2 [0] with trace := [.textRead 0 0] } ∧
      textWritten (3 : BitVec 32).toNat (stateAt 5 2 [0]).text = [] := ⟨rfl, by decide⟩

end Sys2Proof.Tests
end

section
/-! PROOFS. The whole machine: the idle step, the state after reset, which commands move the cursor, and what neither the
device nor the contents of the grid can influence. -/

namespace Sys2Proof.Machine

/-! ### Reset (R21, R22, R140) -/

/-- After reset no byte is listed, so every cell reads as its boot draw. -/
@[simp] theorem reset_cell (i : Nat) : State.reset.cell i = Config.bootCell i := unlisted_cell i

/-- Settles O11: with nothing pending `step` takes its idle branch. -/
theorem idleStepChangesNothing : Obligations.IdleStepChangesNothing := by
  intro s idle
  simp only [step, idle]

/-- Settles O12, field by field. -/
theorem resetState : Obligations.ResetState :=
  ⟨rfl, rfl, rfl, rfl, fun i _ => reset_cell i⟩

/-- Settles O13: the grid and the trace of the reset state are empty, and an empty trace replays to the boot values. -/
theorem resetIsSafe : Obligations.ResetIsSafe where
  gridCanonical := ⟨List.Pairwise.nil, fun _ hc => absurd hc List.not_mem_nil⟩
  accessesInBounds := fun _ he => absurd he List.not_mem_nil
  gridIsReplay := fun i _ => reset_cell i
  readsAreReplay := fun before _ _ _ h =>
    absurd h.symm (List.append_ne_nil_of_right_ne_nil before (List.cons_ne_nil _ _))
  deviceIsReplay := rfl
  portsSynchronised := .nil

/-! ### The commands that leave the cursor alone (R14, R93, R105) -/

theorem writeCellAt_cursor (ch : Byte) (fg bg : ColorBits) (pos : Nat) (s : State) :
    (writeCellAt ch fg bg pos s).cursor = s.cursor := by
  unfold writeCellAt
  split <;> rfl

theorem scroll_cursor (s : State) : (scroll s).cursor = s.cursor := by
  obtain ⟨hcol, hrow, -⟩ := scroll_frame s
  simp only [State.cursor, hcol, hrow]

theorem syncCursor_cursor (col row : Nat) (s : State) : (syncCursor col row s).cursor = s.cursor := by
  unfold syncCursor
  split <;> rfl

/-- Settles O23: the three other commands keep the cursor. -/
theorem onlyPutcAndWrtextMoveTheCursor : Obligations.OnlyPutcAndWrtextMoveTheCursor := by
  intro i s t h moved
  cases i with
  | wrcell ch fg bg pos =>
    cases h
    exact absurd (writeCellAt_cursor ch fg bg pos.toNat s) moved
  | putc ch fg bg => exact .inl ⟨ch, fg, bg, rfl⟩
  | scroll =>
    cases h
    exact absurd (scroll_cursor s) moved
  | synccur col row =>
    cases h
    exact absurd (syncCursor_cursor col.toNat row.toNat s) moved
  | wrtext len => exact .inr ⟨len, rfl⟩

/-! ### Running in lockstep

The block decides on its cursor and on the bound text alone. So a relation between states that agree on these, and that
each primitive keeps when both states make it, is kept by every command; and a command that completes from one of two
related states completes from the other. Both noninterference statements follow from this. -/

/-- `R` relates only states with the same cursor and bound text, and is kept when both states make the same primitive
access. A copied cell is one access, since the two states may copy different contents. -/
structure Lockstep (R : State → State → Prop) : Prop where
  col {s s' : State} : R s s' → s.col = s'.col
  row {s s' : State} : R s s' → s.row = s'.row
  text {s s' : State} : R s s' → s.text = s'.text
  copyCell {s s' : State} (src dst : Nat) : R s s' → R (copyCell src dst s) (copyCell src dst s')
  writeCell {s s' : State} (i : Nat) (v : CellWord) : R s s' → R (s.writeCell i v) (s'.writeCell i v)
  portWrite {s s' : State} (p : Port) (v : Byte) : R s s' → R (s.portWrite p v) (s'.portWrite p v)
  setCursor {s s' : State} (c r : Nat) : R s s' → R (s.setCursor c r) (s'.setCursor c r)
  readText {s s' : State} (i : Nat) (b : Byte) : R s s' → R (s.emit (.textRead i b)) (s'.emit (.textRead i b))

namespace Lockstep

variable {R : State → State → Prop} {s s' t : State}

theorem cursor (hR : Lockstep R) (h : R s s') : s.cursor = s'.cursor := by
  simp only [State.cursor, hR.col h, hR.row h]

theorem writeCellAt (hR : Lockstep R) (ch : Byte) (fg bg : ColorBits) (pos : Nat) (h : R s s') :
    R (writeCellAt ch fg bg pos s) (writeCellAt ch fg bg pos s') := by
  rcases Nat.lt_or_ge pos 2000 with inGrid | outside
  · rw [writeCellAt_of_lt inGrid, writeCellAt_of_lt inGrid]
    exact hR.writeCell _ _ h
  · rwa [writeCellAt_of_ge outside, writeCellAt_of_ge outside]

theorem shiftCells (hR : Lockstep R) (n : Nat) (h : R s s') : R (shiftCells n s) (shiftCells n s') := by
  induction n with
  | zero => exact h
  | succ n ih => exact hR.copyCell _ _ ih

theorem clearCells (hR : Lockstep R) (n : Nat) (h : R s s') : R (clearCells n s) (clearCells n s') := by
  induction n with
  | zero => exact h
  | succ n ih => exact hR.writeCellAt _ _ _ _ ih

theorem scroll (hR : Lockstep R) (h : R s s') : R (scroll s) (scroll s') :=
  hR.clearCells 80 (hR.shiftCells 1920 h)

theorem sendPosition (hR : Lockstep R) (p : BitVec 16) (h : R s s') : R (sendPosition p s) (sendPosition p s') :=
  hR.portWrite _ _ (hR.portWrite _ _ (hR.portWrite _ _ (hR.portWrite _ _ h)))

theorem syncCursor (hR : Lockstep R) (col row : Nat) (h : R s s') :
    R (syncCursor col row s) (syncCursor col row s') := by
  unfold Machine.syncCursor
  split
  · exact h
  · exact hR.sendPosition _ h

/-- The write, the scroll decision and the new cursor of a `PutCharacter` depend on the cursor alone (R86). -/
theorem putCharacter (hR : Lockstep R) (ch : Byte) (fg bg : ColorBits) (h : R s s') :
    R (putCharacter ch fg bg s) (putCharacter ch fg bg s') := by
  rw [putCharacter_eq, putCharacter_eq, ← hR.cursor h, ← hR.col h, ← hR.row h]
  refine hR.sendPosition _ (hR.setCursor _ _ ?_)
  split
  · exact hR.scroll (hR.writeCell _ _ h)
  · exact hR.writeCell _ _ h

theorem writeTextFrom (hR : Lockstep R) (len i : Nat) (bytes : List Byte) (h : R s s') :
    R (writeTextFrom len i bytes s) (writeTextFrom len i bytes s') := by
  induction bytes generalizing i s s' with
  | nil => exact h
  | cons b rest ih =>
    have hread := hR.readText i b h
    unfold Machine.writeTextFrom
    split
    · dsimp only
      split
      · exact hread
      · exact ih _ (hR.putCharacter _ _ _ hread)
    · exact h

/-- A command that completes from one of two related states completes from the other, and they are related again. -/
theorem exec (hR : Lockstep R) {i : Instr} (h : R s s') (ht : exec i s = .next t) :
    ∃ t', Machine.exec i s' = .next t' ∧ R t t' := by
  cases i with
  | wrcell ch fg bg pos =>
    cases ht
    exact ⟨_, rfl, hR.writeCellAt _ _ _ _ h⟩
  | putc ch fg bg =>
    cases ht
    exact ⟨_, rfl, hR.putCharacter _ _ _ h⟩
  | scroll =>
    cases ht
    exact ⟨_, rfl, hR.scroll h⟩
  | synccur col row =>
    cases ht
    exact ⟨_, rfl, hR.syncCursor _ _ h⟩
  | wrtext len =>
    simp only [Machine.exec, execWrtext] at ht ⊢
    rw [← hR.text h]
    split at ht
    · rename_i found
      cases ht
      exact ⟨_, if_pos found, hR.writeTextFrom _ _ _ h⟩
    · cases ht

end Lockstep

/-! ### The device (R18) -/

/-- The second state is the first with some other device registers. -/
def State.sameButDevice (s s' : State) : Prop := ∃ d, s' = { s with dev := d }

/-- No primitive access reads the device: a port write alone changes it, and nothing else depends on it. -/
theorem sameButDevice_lockstep : Lockstep State.sameButDevice where
  col := by rintro s _ ⟨d, rfl⟩; rfl
  row := by rintro s _ ⟨d, rfl⟩; rfl
  text := by rintro s _ ⟨d, rfl⟩; rfl
  copyCell := by rintro s _ src dst ⟨d, rfl⟩; exact ⟨d, rfl⟩
  writeCell := by rintro s _ i v ⟨d, rfl⟩; exact ⟨d, rfl⟩
  portWrite := by rintro s _ p v ⟨d, rfl⟩; exact ⟨d.write p v, rfl⟩
  setCursor := by rintro s _ c r ⟨d, rfl⟩; exact ⟨d, rfl⟩
  readText := by rintro s _ i b ⟨d, rfl⟩; exact ⟨d, rfl⟩

/-- Settles O24: states that differ in the device alone run in lockstep. -/
theorem deviceNeverInfluencesTheBlock : Obligations.DeviceNeverInfluencesTheBlock := by
  intro i s t d h
  obtain ⟨_, h', d', rfl⟩ := sameButDevice_lockstep.exec ⟨d, rfl⟩ h
  exact ⟨d', h'⟩

/-! ### The contents of grid, device and events (R14, R18) -/

/-- Each primitive access adds the same number of events whatever the contents, and none moves the cursor by them. -/
theorem sameControl_lockstep : Lockstep State.sameControl where
  col := fun ⟨hcol, _⟩ => hcol
  row := fun ⟨_, hrow, _⟩ => hrow
  text := fun ⟨_, _, _, htext, _⟩ => htext
  copyCell := fun src dst h => by simpa [State.sameControl, copyCell_eq] using h
  writeCell := fun i v h => by simpa [State.sameControl] using h
  portWrite := fun p v h => by simpa [State.sameControl] using h
  setCursor := fun c r ⟨_, _, hinput⟩ => ⟨rfl, rfl, hinput⟩
  readText := fun i b h => by simpa [State.sameControl] using h

/-- Settles O25: states that agree on cursor, host input and number of events run in lockstep. -/
theorem contentsNeverInfluenceTheCursor : Obligations.ContentsNeverInfluenceTheCursor :=
  fun _ _ _ _ same h => sameControl_lockstep.exec same h

end Sys2Proof.Machine
end

section
/-! PROOFS. The grid's memory and the trace: the bytes an observer sees, the canonical form, and the trace as an account
of every access: nothing outside the grid, nothing taken back, the grid and every read as the writes before say. -/

namespace Sys2Proof.Machine

/-! ### The byte view (R33, R34) -/

/-- A byte of the grid at its platform address. -/
theorem State.byteAt_fbBase_add (s : State) {a : Nat} (ha : a < 4000) :
    s.byteAt (Config.platform.fbBase + a) = some (Memory.read s.grid a) := by
  rw [State.byteAt, if_pos (by omega), Nat.add_sub_cancel_left]

theorem State.byteAt_isSome (s : State) (addr : Nat) :
    (s.byteAt addr).isSome ↔ Config.platform.fbBase ≤ addr ∧ addr ≤ Config.platform.fbBase + 3999 := by
  unfold State.byteAt
  split
  · exact iff_of_true rfl (by omega)
  · exact iff_of_false nofun (by omega)

theorem State.cellChar_cell (s : State) (i : Nat) : cellChar (s.cell i) = Memory.read s.grid (2 * i) :=
  BitVec.extractLsb'_append_eq_right

theorem State.cell_colours (s : State) (i : Nat) : (s.cell i).extractLsb 15 8 = Memory.read s.grid (2 * i + 1) :=
  BitVec.extractLsb'_append_eq_left

/-- An observer's 16-bit read at the address of a cell gives the cell: the base is even, so the read is aligned. -/
theorem State.memRead_cell (s : State) {i : Nat} (hi : i < 2000) :
    s.memRead (Config.platform.fbBase + 2 * i) = some (s.cell i) := by
  have base_even := Config.platform.fbBase_even
  rw [State.memRead, if_pos (by omega), Nat.add_assoc, s.byteAt_fbBase_add (by omega), s.byteAt_fbBase_add (by omega),
    State.cell]

/-- Settles O9: both bytes of a cell of the grid lie below offset 4000. -/
theorem byteViewOfCells : Obligations.ByteViewOfCells := by
  refine ⟨fun s i hi => ⟨s.memRead_cell hi, ?_, ?_⟩, State.byteAt_isSome⟩
  · rw [s.byteAt_fbBase_add (by omega), s.cellChar_cell]
  · rw [Nat.add_assoc, s.byteAt_fbBase_add (by omega), s.cell_colours]

/-! ### The canonical form (R33, R38) -/

/-- Settles O14: every cell a procedure stores lies in the grid, so each action keeps the form. -/
theorem stepKeepsGridCanonical : Obligations.StepKeepsGridCanonical :=
  fun _ _ canonical h => (step_acts h).keeps (fun _ _ act => act.wf) canonical

/-! ### The trace only grows, and inside the grid (R38, R41, R43) -/

/-- Settles O21: what a command does is a sequence of actions, and an action adds its events at the end. -/
theorem commandsOnlyExtendTheTrace : Obligations.CommandsOnlyExtendTheTrace := by
  intro i s t h
  obtain ⟨new, ht⟩ := (exec_acts h).trace_append
  rw [State.newEvents_of_append ht]
  exact ⟨⟨new, ht.symm⟩, ht⟩

/-- What a port write keeps, a synchronisation keeps. -/
theorem sendPosition_keeps {P : State → Prop} (keep : ∀ s p v, P s → P (s.portWrite p v)) {p : BitVec 16} {s : State}
    (hs : P s) : P (sendPosition p s) :=
  keep _ _ _ (keep _ _ _ (keep _ _ _ (keep _ _ _ hs)))

theorem State.accessesInBounds_emit {s : State} (hs : s.accessesInBounds) {e : Event} (he : e.inBounds) :
    (s.emit e).accessesInBounds := fun x hx => by
  rcases List.mem_append.mp hx with old | new
  · exact hs x old
  · rwa [List.mem_singleton.mp new]

/-- An action accesses no cell outside the grid. -/
theorem Act.accessesInBounds {s t : State} (h : Act s t) (hs : s.accessesInBounds) : t.accessesInBounds := by
  cases h with
  | readCell hi => exact State.accessesInBounds_emit hs hi
  | writeCell hi v => exact State.accessesInBounds_emit (s := s.setCell _ v) hs hi
  | sendPosition _ =>
    refine sendPosition_keeps (fun s p v hs => ?_) hs
    exact State.accessesInBounds_emit (s := { s with dev := s.dev.write p v }) hs trivial
  | readText i b => exact State.accessesInBounds_emit hs trivial
  | setCursor _ _ => exact hs
  | issue _ _ => exact hs

/-- Settles O15: each action stays inside the grid. -/
theorem stepKeepsAccessesInBounds : Obligations.StepKeepsAccessesInBounds :=
  fun _ _ inBounds h => (step_acts h).keeps (fun _ _ act => act.accessesInBounds) inBounds

/-! ### The grid is what the trace wrote (R40, R41, R44) -/

/-- An event that leaves every cell alone, added without a change of the grid, keeps the two equal. -/
theorem State.gridIsReplay_emit {s : State} (hs : s.gridIsReplay) {e : Event} (he : ∀ i v, e.onCell i v = v) :
    (s.emit e).gridIsReplay := fun i hi => by
  rw [State.emit_cell, State.emit_trace, replayCell_append, hs i hi]
  exact (he i _).symm

/-- A cell write changes the cell and its replay alike. -/
theorem State.gridIsReplay_writeCell {s : State} (hs : s.gridIsReplay) (i : Nat) (v : CellWord) :
    (s.writeCell i v).gridIsReplay := fun j hj => by
  rw [State.writeCell_cell, State.cell_setCell, State.writeCell_trace, replayCell_append, hs j hj]
  rfl

/-- An action changes the cells and their replay together: by a cell write, or neither of them. -/
theorem Act.gridIsReplay {s t : State} (h : Act s t) (hs : s.gridIsReplay) : t.gridIsReplay := by
  cases h with
  | readCell _ => exact State.gridIsReplay_emit hs fun _ _ => rfl
  | writeCell _ v => exact State.gridIsReplay_writeCell hs _ v
  | sendPosition _ =>
    refine sendPosition_keeps (fun s p v hs => ?_) hs
    exact State.gridIsReplay_emit (s := { s with dev := s.dev.write p v }) hs fun _ _ => rfl
  | readText _ _ => exact State.gridIsReplay_emit hs fun _ _ => rfl
  | setCursor _ _ => exact hs
  | issue _ _ => exact hs

/-- Settles O16: each action keeps the grid and the replay of the trace equal. -/
theorem stepKeepsGridEqualToTrace : Obligations.StepKeepsGridEqualToTrace :=
  fun _ _ isReplay h => (step_acts h).keeps (fun _ _ act => act.gridIsReplay) isReplay

/-! ### Every read is coherent (R40, R44) -/

/-- One more event keeps the reads coherent when, should it be a cell read, its value is what the trace so far wrote. -/
theorem State.readsAreReplay_emit {s : State} (hs : s.readsAreReplay) {e : Event}
    (he : ∀ i v, e = .cellRead i v → v = replayCell s.trace i) : (s.emit e).readsAreReplay := by
  intro before after i v parts
  rw [State.emit_trace] at parts
  rcases List.eq_nil_or_concat after with rfl | ⟨after', last, rfl⟩
  · obtain ⟨rfl, new⟩ := List.append_singleton_inj.mp parts
    exact he i v new
  · rw [List.concat_eq_append, ← List.cons_append, ← List.append_assoc] at parts
    exact hs before after' i v (List.append_singleton_inj.mp parts).1

/-- The only action that reads a cell reads it from a grid that is the replay of the trace. -/
theorem Act.readsAreReplay {s t : State} (h : Act s t) (grid : s.gridIsReplay) (hs : s.readsAreReplay) :
    t.readsAreReplay := by
  cases h with
  | readCell hi =>
    refine State.readsAreReplay_emit hs fun _ _ e => ?_
    cases e
    exact grid _ hi
  | writeCell _ v => exact State.readsAreReplay_emit (s := s.setCell _ v) hs fun _ _ e => nomatch e
  | sendPosition _ =>
    refine sendPosition_keeps (fun s p v hs => ?_) hs
    exact State.readsAreReplay_emit (s := { s with dev := s.dev.write p v }) hs fun _ _ e => nomatch e
  | readText _ _ => exact State.readsAreReplay_emit hs fun _ _ e => nomatch e
  | setCursor _ _ => exact hs
  | issue _ _ => exact hs

/-- Settles O17: a read is coherent because the grid it reads is the replay, so the two are kept together. -/
theorem stepKeepsReadsCoherent : Obligations.StepKeepsReadsCoherent := by
  intro s t grid reads h
  have both : t.gridIsReplay ∧ t.readsAreReplay :=
    (step_acts h).keeps (P := fun u => u.gridIsReplay ∧ u.readsAreReplay)
      (fun _ _ act ⟨grid, reads⟩ => ⟨act.gridIsReplay grid, act.readsAreReplay grid reads⟩) ⟨grid, reads⟩
  exact both.2

end Sys2Proof.Machine
end

section
/-! PROOFS. The encodings (30_encoding.md): the command words in both directions, their masks and the reserved words
(R55 to R65), and the cell layout (R50, R51, R53). -/

namespace Sys2Proof

/-! ### Fields placed in a word (R58 to R62) -/

/-- A placed field is read back from its own bits. -/
@[simp] theorem extractLsb'_place_same {n : Nat} (field : BitVec n) {lo : Nat} (h : lo + n ≤ 40) :
    (place field lo).extractLsb' lo n = field :=
  BitVec.eq_of_getLsbD_eq fun k hk => by
    rw [BitVec.getLsbD_extractLsb', getLsbD_place _ _ _ (by omega), Nat.add_sub_cancel_left]
    simp [hk]

/-- A placed field leaves the bits beside it zero. -/
@[simp] theorem extractLsb'_place_disjoint {n : Nat} (field : BitVec n) {lo start len : Nat} (fits : start + len ≤ 40)
    (h : lo + n ≤ start ∨ start + len ≤ lo) : (place field lo).extractLsb' start len = 0#len :=
  BitVec.eq_of_getLsbD_eq fun k hk => by
    rw [BitVec.getLsbD_extractLsb', getLsbD_place _ _ _ (by omega), BitVec.getLsbD_zero]
    rcases h with below | above
    · rw [BitVec.getLsbD_of_ge field _ (by omega), Bool.and_false, Bool.and_false]
    · rw [decide_eq_false (show ¬ lo ≤ start + k by omega), Bool.false_and, Bool.and_false]

/-- Two fields cut side by side from a word and placed back are the one field they make up. -/
theorem place_or_place (w : CmdWord) {hi lo m n : Nat} (h : hi = lo + n) :
    place (w.extractLsb' hi m) hi ||| place (w.extractLsb' lo n) lo = place (w.extractLsb' lo (n + m)) lo :=
  BitVec.eq_of_getLsbD_eq fun k hk => by
    simp only [BitVec.getLsbD_or, getLsbD_place _ _ k hk, BitVec.getLsbD_extractLsb', h]
    rcases Nat.lt_or_ge k lo with below | notBelow
    · simp [show ¬ lo ≤ k by omega, show ¬ lo + n ≤ k by omega]
    rcases Nat.lt_or_ge k (lo + n) with low | high
    · simp [notBelow, show ¬ lo + n ≤ k by omega, show k - lo < n by omega, show k - lo < n + m by omega]
    · simp [notBelow, high, show ¬ k - lo < n by omega, show k - (lo + n) < m ↔ k - lo < n + m by omega,
        show lo + n + (k - (lo + n)) = lo + (k - lo) by omega]

theorem place_whole (w : CmdWord) : place (w.extractLsb' 0 40) 0 = w := by simp [place]

/-- A word is the fields of format C put together (R58), and so of format P (R59). -/
theorem word_of_cell_fields (w : CmdWord) :
    place (opcodeField w) 32 ||| place (upperField w) 16 ||| place (bgField w) 12 ||| place (fgField w) 8 |||
      place (lowField w) 0 = w := by
  simp only [opcodeField, upperField, bgField, fgField, lowField, place_or_place]
  exact place_whole w

/-- A word is the fields of format X put together (R61). -/
theorem word_of_coordinate_fields (w : CmdWord) :
    place (opcodeField w) 32 ||| place (upperField w) 16 ||| place (rowField w) 8 ||| place (lowField w) 0 = w := by
  simp only [opcodeField, upperField, rowField, lowField, place_or_place]
  exact place_whole w

/-- A word is its opcode and its argument put together (R55), as in formats N and L (R60, R62). -/
theorem word_of_argument_field (w : CmdWord) : place (opcodeField w) 32 ||| place (argField w) 0 = w := by
  simp only [opcodeField, argField, place_or_place]
  exact place_whole w

/-! ### The decoder, row by row (R65): the converse of `decode_ok` -/

theorem decode_wrcell {w : CmdWord} (op : opcodeField w = 0x01#8) :
    decode w = .ok (.wrcell (lowField w) (fgField w) (bgField w) (upperField w)) := by
  simp [decode, op]

theorem decode_putc {w : CmdWord} (op : opcodeField w = 0x02#8) (zero : upperField w = 0#16) :
    decode w = .ok (.putc (lowField w) (fgField w) (bgField w)) := by
  simp [decode, op, zero]

theorem decode_scroll {w : CmdWord} (op : opcodeField w = 0x03#8) (zero : argField w = 0#32) :
    decode w = .ok .scroll := by
  simp [decode, op, zero]

theorem decode_synccur {w : CmdWord} (op : opcodeField w = 0x04#8) (zero : upperField w = 0#16) :
    decode w = .ok (.synccur (lowField w) (rowField w)) := by
  simp [decode, op, zero]

theorem decode_wrtext {w : CmdWord} (op : opcodeField w = 0x05#8) : decode w = .ok (.wrtext (argField w)) := by
  simp [decode, op]

/-! ### Round trips (R58 to R62, R65) -/

theorem decode_encode (i : Instr) : decode (encode i) = .ok i := by
  cases i with
  | wrcell ch fg bg pos =>
    rw [decode_wrcell] <;>
      simp [encode, opcodeField, upperField, bgField, fgField, lowField, BitVec.extractLsb'_or]
  | putc ch fg bg =>
    rw [decode_putc] <;>
      simp [encode, opcodeField, upperField, bgField, fgField, lowField, BitVec.extractLsb'_or]
  | scroll => decide
  | synccur col row =>
    rw [decode_synccur] <;>
      simp [encode, opcodeField, upperField, rowField, lowField, BitVec.extractLsb'_or]
  | wrtext len =>
    rw [decode_wrtext] <;>
      simp [encode, opcodeField, argField, BitVec.extractLsb'_or]

/-- Settles O1: each operand is read back from the bits it was placed at. -/
theorem decodeOfEncodeIsTheCommand : Obligations.DecodeOfEncodeIsTheCommand := decode_encode

/-- Settles O2: the decoder looks at every bit of the word, and the command's fields put together are the word. -/
theorem encodeOfDecodedWordIsTheWord : Obligations.EncodeOfDecodedWordIsTheWord := by
  intro w i h
  rcases decode_ok h with ⟨op, rfl⟩ | ⟨op, zero, rfl⟩ | ⟨op, zero, rfl⟩ | ⟨op, zero, rfl⟩ | ⟨op, rfl⟩
  · rw [encode, ← op, word_of_cell_fields]
  · rw [encode, ← op, ← zero, word_of_cell_fields]
  · rw [encode, ← op, ← zero, word_of_argument_field]
  · rw [encode, ← op, ← zero, word_of_coordinate_fields]
  · rw [encode, ← op, word_of_argument_field]

/-! ### Mask and match (R65) -/

/-- The word of every command carries its row's bits. -/
theorem encode_and_rowMask (i : Instr) : encode i &&& rowMask i = rowMatch i :=
  match i with
  | .wrcell ch fg bg pos => Laws.MaskMatch.wrcell ch fg bg pos
  | .putc ch fg bg => Laws.MaskMatch.putc ch fg bg
  | .scroll => Laws.MaskMatch.scroll
  | .synccur col row => Laws.MaskMatch.synccur col row
  | .wrtext len => Laws.MaskMatch.wrtext len

/-- A word that is a row's match under a mask has the match's bits in every field the mask covers. -/
theorem extractLsb'_of_and_eq {w mask bits : CmdWord} (h : w &&& mask = bits) {lo n : Nat}
    (covered : mask.extractLsb' lo n = BitVec.allOnes n) : w.extractLsb' lo n = bits.extractLsb' lo n := by
  rw [← h, BitVec.extractLsb'_and, covered, BitVec.and_allOnes]

/-- Settles O3: the mask covers the opcode and the zero fields of its row; and a word that decodes is the word of its
command, which matches a row. -/
theorem decodeByMaskAndMatch : Obligations.DecodeByMaskAndMatch := by
  refine fun w => ⟨fun h => ?_, fun h => ?_, fun h => ?_, fun h => ?_, fun h => ?_, fun no1 no2 no3 no4 no5 => ?_⟩
  · exact decode_wrcell (extractLsb'_of_and_eq h (by decide))
  · exact decode_putc (extractLsb'_of_and_eq h (by decide)) (extractLsb'_of_and_eq h (by decide))
  · exact decode_scroll (extractLsb'_of_and_eq h (by decide)) (extractLsb'_of_and_eq h (by decide))
  · exact decode_synccur (extractLsb'_of_and_eq h (by decide)) (extractLsb'_of_and_eq h (by decide))
  · exact decode_wrtext (extractLsb'_of_and_eq h (by decide))
  cases answer : decode w with
  | error r => exact ⟨r, rfl⟩
  | ok i =>
    have row := encode_and_rowMask i
    rw [encodeOfDecodedWordIsTheWord w i answer] at row
    cases i with
    | wrcell _ _ _ _ => exact absurd row no1
    | putc _ _ _ => exact absurd row no2
    | scroll => exact absurd row no3
    | synccur _ _ => exact absurd row no4
    | wrtext _ => exact absurd row no5

/-! ### Reserved words (R64) -/

/-- Which words are commands: the opcode is assigned and the reserved fields of its format are zero. -/
theorem decode_isOk_iff (w : CmdWord) :
    (∃ i, decode w = .ok i) ↔
      opcodeField w = 1#8 ∨ (opcodeField w = 2#8 ∧ upperField w = 0#16) ∨ (opcodeField w = 3#8 ∧ argField w = 0#32) ∨
        (opcodeField w = 4#8 ∧ upperField w = 0#16) ∨ opcodeField w = 5#8 := by
  constructor
  · rintro ⟨i, h⟩
    rcases decode_ok h with ⟨op, -⟩ | ⟨op, zero, -⟩ | ⟨op, zero, -⟩ | ⟨op, zero, -⟩ | ⟨op, -⟩
    · exact .inl op
    · exact .inr (.inl ⟨op, zero⟩)
    · exact .inr (.inr (.inl ⟨op, zero⟩))
    · exact .inr (.inr (.inr (.inl ⟨op, zero⟩)))
    · exact .inr (.inr (.inr (.inr op)))
  · rintro (op | ⟨op, zero⟩ | ⟨op, zero⟩ | ⟨op, zero⟩ | op)
    · exact ⟨_, decode_wrcell op⟩
    · exact ⟨_, decode_putc op zero⟩
    · exact ⟨_, decode_scroll op zero⟩
    · exact ⟨_, decode_synccur op zero⟩
    · exact ⟨_, decode_wrtext op⟩

theorem decode_isError_iff (w : CmdWord) : (∃ r, decode w = .error r) ↔ ¬ ∃ i, decode w = .ok i := by
  cases decode w <;> simp

/-- A step with a reserved word next takes it off the pending list and binds its bytes, and that is all. -/
theorem Machine.step_reserved {s : Machine.State} {c : Command} {rest : List Command} {r : Reserved}
    (next : s.pending = c :: rest) (reserved : decode c.word = .error r) : Machine.step s = .next (s.issue c rest) := by
  simp only [Machine.step, next, reserved]

/-- Settles O5: the reserved words are those the decoder has no row for, and the step only issues them. -/
theorem reservedWordsHaveNoEffect : Obligations.ReservedWordsHaveNoEffect := by
  refine ⟨fun w => ?_, fun s c rest r next reserved =>
    ⟨_, Machine.step_reserved next reserved, rfl, rfl, rfl, rfl, rfl, rfl⟩⟩
  rw [decode_isError_iff, decode_isOk_iff]
  change _ ↔ opcodeField w ∉ _ ∨ ((opcodeField w = 2#8 ∨ opcodeField w = 4#8) ∧ upperField w ≠ 0#16) ∨
    (opcodeField w = 3#8 ∧ argField w ≠ 0#32)
  by_cases assigned : opcodeField w ∈ [1#8, 2#8, 3#8, 4#8, 5#8]
  · simp only [List.mem_cons, List.not_mem_nil, or_false] at assigned
    rcases assigned with op | op | op | op | op <;> simp [op]
  · simp_all

/-- Settles O4: the words evaluated. -/
theorem specWordsDecode : Obligations.SpecWordsDecode := by
  unfold Obligations.SpecWordsDecode
  decide

end Sys2Proof

namespace Sys2Proof.Machine

/-! ### The cell layout (R50, R51, R53) -/

/-- Bits put side by side, as a sum. -/
theorem toNat_append_eq_add {m n : Nat} (x : BitVec m) (y : BitVec n) : (x ++ y).toNat = y.toNat + x.toNat * 2 ^ n := by
  rw [BitVec.toNat_append, ← Nat.shiftLeft_add_eq_or_of_lt y.isLt, Nat.shiftLeft_eq, Nat.add_comm]

theorem attributeByte_toNat (fg bg : ColorBits) : (attributeByte fg bg).toNat = fg.toNat + bg.toNat * 16 :=
  toNat_append_eq_add bg fg

theorem encodeCell_toNat (ch : Byte) (fg bg : ColorBits) :
    (encodeCell ch fg bg).toNat = ch.toNat + (attributeByte fg bg).toNat * 256 :=
  toNat_append_eq_add (attributeByte fg bg) ch

theorem cellChar_encodeCell (ch : Byte) (fg bg : ColorBits) : cellChar (encodeCell ch fg bg) = ch :=
  BitVec.extractLsb'_append_eq_right

theorem cellFg_encodeCell (ch : Byte) (fg bg : ColorBits) : cellFg (encodeCell ch fg bg) = fg :=
  (BitVec.extractLsb'_append_eq_of_le (Nat.le_refl 8)).trans BitVec.extractLsb'_append_eq_right

theorem cellBg_encodeCell (ch : Byte) (fg bg : ColorBits) : cellBg (encodeCell ch fg bg) = bg :=
  (BitVec.extractLsb'_append_eq_of_le (by decide : 8 ≤ 12)).trans BitVec.extractLsb'_append_eq_left

/-- The two colours of a cell value are its high byte. -/
theorem attributeByte_of_cell (v : CellWord) : attributeByte (cellFg v) (cellBg v) = v.extractLsb' 8 8 :=
  BitVec.extractLsb'_append_extractLsb'_eq_extractLsb' rfl

theorem encodeCell_of_cell (v : CellWord) : encodeCell (cellChar v) (cellFg v) (cellBg v) = v := by
  rw [encodeCell, attributeByte_of_cell]
  exact bytes_append v

/-- Settles O7: the fields of a cell stand side by side and fill it. -/
theorem cellDecodingInvertsEncoding : Obligations.CellDecodingInvertsEncoding :=
  ⟨fun ch fg bg => ⟨cellChar_encodeCell ch fg bg, cellFg_encodeCell ch fg bg, cellBg_encodeCell ch fg bg⟩,
    encodeCell_of_cell⟩

/-- Settles O6: the encoder has the decoder of R51 as its inverse on both sides, so it is one to one onto the values. -/
theorem encodeCellLayout : Obligations.EncodeCellLayout := by
  refine ⟨fun ch fg bg => ⟨?_, cellChar_encodeCell ch fg bg, cellFg_encodeCell ch fg bg, cellBg_encodeCell ch fg bg⟩,
    fun v => ⟨(cellChar v, cellFg v, cellBg v), encodeCell_of_cell v, ?_⟩, by decide⟩
  · rw [encodeCell_toNat, attributeByte_toNat]
    omega
  · rintro ⟨ch, fg, bg⟩ rfl
    rw [cellChar_encodeCell, cellFg_encodeCell, cellBg_encodeCell]

/-- The source's formula with the parentheses of R53. -/
theorem encodeCell_eq_formula (ch : Byte) (fg bg : ColorBits) :
    encodeCell ch fg bg = ch.setWidth 16 ||| ((fg.setWidth 16 ||| (bg.setWidth 16 <<< 4)) <<< 8) := by
  have bits : encodeCell ch fg bg = (bg ++ fg).setWidth 16 <<< 8 ||| ch.setWidth 16 := by
    rw [← BitVec.setWidth_append_eq_shiftLeft_setWidth_or, BitVec.setWidth_eq]
    rfl
  rw [bits, BitVec.setWidth_append_eq_shiftLeft_setWidth_or, BitVec.or_comm, BitVec.or_comm (fg.setWidth 16)]

/-- Settles O8: concatenation is shift and or, and, no bits overlapping, a sum. -/
theorem attributeByteFormula : Obligations.AttributeByteFormula :=
  fun ch fg bg => ⟨encodeCell_eq_formula ch fg bg, attributeByte_toNat fg bg, encodeCell_toNat ch fg bg⟩

end Sys2Proof.Machine
end

section
/-! PROOFS. `WRCELL` (40_write_cell.md): its bound, the cell it stores, and what it leaves alone (R70 to R73). -/

namespace Sys2Proof.Machine

/-! ### The bound (R71) -/

theorem exec_wrcell_of_lt {pos : BitVec 16} (h : pos.toNat < 2000) (ch : Byte) (fg bg : ColorBits) (s : State) :
    exec (.wrcell ch fg bg pos) s = .next (s.writeCell pos.toNat (encodeCell ch fg bg)) :=
  congrArg Host.Outcome.next (writeCellAt_of_lt h ch fg bg s)

theorem exec_wrcell_of_ge {pos : BitVec 16} (h : 2000 ≤ pos.toNat) (ch : Byte) (fg bg : ColorBits) (s : State) :
    exec (.wrcell ch fg bg pos) s = .next s :=
  congrArg Host.Outcome.next (writeCellAt_of_ge h ch fg bg s)

/-- Settles O27: the two sides of the bound. -/
theorem wrcellBound : Obligations.WrcellBound := by
  intro ch fg bg pos s
  rcases Nat.lt_or_ge pos.toNat 2000 with inGrid | outside
  · rw [exec_wrcell_of_lt inGrid, if_pos inGrid]
  · rw [exec_wrcell_of_ge outside, if_neg (Nat.not_lt.mpr outside)]

/-! ### The stored cell (R70, R73) -/

/-- Settles O26: a cell just stored reads back, the others are left alone, and the stored value is the sum of R50. -/
theorem wrcellStoresTheCell : Obligations.WrcellStoresTheCell := by
  intro ch fg bg pos s inGrid
  refine ⟨_, exec_wrcell_of_lt inGrid ch fg bg s, ?_, fun i other => ?_, State.writeCell_trace _ _ _⟩
  · obtain ⟨sum, -⟩ := encodeCellLayout.1 ch fg bg
    rw [State.writeCell_cell, State.cell_setCell_same, sum]
  · rw [State.writeCell_cell, State.cell_setCell_ne _ _ other]

/-! ### The frame (R72) -/

/-- Storing a cell neither reads nor writes the cursor. -/
theorem writeCellAt_withCursor (ch : Byte) (fg bg : ColorBits) (pos : Nat) (s : State) (c : Fin 80) (r : Fin 25) :
    writeCellAt ch fg bg pos { s with col := c, row := r } =
      { writeCellAt ch fg bg pos s with col := c, row := r } := by
  unfold writeCellAt
  split <;> rfl

/-- Settles O28: in range the command is one stored cell with its one event, out of range it is nothing at all; neither
depends on the cursor. -/
theorem wrcellFrame : Obligations.WrcellFrame := by
  intro ch fg bg pos s t h
  have cursorUnread (c : Fin 80) (r : Fin 25) :
      exec (.wrcell ch fg bg pos) { s with col := c, row := r } = .next { t with col := c, row := r } := by
    cases h
    exact congrArg Host.Outcome.next (writeCellAt_withCursor ch fg bg pos.toNat s c r)
  rcases Nat.lt_or_ge pos.toNat 2000 with inGrid | outside
  · rw [exec_wrcell_of_lt inGrid] at h
    cases h
    refine ⟨rfl, rfl, rfl, ⟨rfl, rfl⟩, ?_, fun a unaddressed => ?_, cursorUnread⟩
    · rw [State.newEvents_of_append (State.writeCell_trace _ _ _)]
      rfl
    · exact State.setCell_read (fun addressed => unaddressed ⟨inGrid, addressed⟩) s _
  · rw [exec_wrcell_of_ge outside] at h
    cases h
    refine ⟨rfl, rfl, rfl, ⟨rfl, rfl⟩, ?_, fun _ _ => rfl, cursorUnread⟩
    rw [State.newEvents_of_append (List.append_nil _).symm]
    rfl

end Sys2Proof.Machine
end

section
/-! PROOFS. `PUTC` (41_put_character.md): where the cursor goes and what stands in the cells, the events and the device,
what it leaves alone (R80 to R87); and the cursor along a text from (0, 0) (R116). -/

namespace Sys2Proof.Machine

/-! ### The table of R86, row by row -/

theorem nextCursor_of_col_lt {c : Nat} (h : c < 79) (r : Nat) : nextCursor (c, r) = (c + 1, r) := if_pos h

theorem nextCursor_wrap {r : Nat} (h : r < 24) : nextCursor (79, r) = (0, r + 1) := by
  rw [nextCursor, if_neg (Nat.lt_irrefl 79), if_pos h]

theorem nextCursor_last : nextCursor (79, 24) = (0, 24) := rfl

theorem State.cursor_eq_iff {s : State} {c r : Nat} : s.cursor = (c, r) ↔ s.col.val = c ∧ s.row.val = r := Prod.mk_inj

/-! ### Cursor and cells (R82, R83, R84) -/

/-- While the grid has room the character stands where the cursor was and no other cell changes. -/
theorem putCharacter_stores {s : State} (room : s.cursor ≠ (79, 24)) (ch : Byte) (fg bg : ColorBits) :
    (putCharacter ch fg bg s).cell (s.col.val + s.row.val * 80) = encodeCell ch fg bg ∧
      ∀ i, i ≠ s.col.val + s.row.val * 80 → (putCharacter ch fg bg s).cell i = s.cell i :=
  ⟨by rw [putCharacter_cell room, linearPos, if_pos rfl],
    fun i other => by rw [putCharacter_cell room, linearPos, if_neg (Ne.symm other)]⟩

/-- Settles O29: the first row of the table of R86. -/
theorem putcAdvances : Obligations.PutcAdvances := by
  intro ch fg bg s inRow
  have room : s.cursor ≠ (79, 24) := fun last => Nat.ne_of_lt inRow (State.cursor_eq_iff.mp last).1
  have moved : (putCharacter ch fg bg s).cursor = (s.col.val + 1, s.row.val) :=
    (putCharacter_cursor ch fg bg s).trans (nextCursor_of_col_lt inRow _)
  obtain ⟨hcol, hrow⟩ := State.cursor_eq_iff.mp moved
  exact ⟨_, rfl, hcol, Fin.ext hrow, putCharacter_stores room ch fg bg⟩

/-- Settles O30: the second row of the table. -/
theorem putcWraps : Obligations.PutcWraps := by
  intro ch fg bg s atEnd above
  have room : s.cursor ≠ (79, 24) := fun last => Nat.ne_of_lt above (State.cursor_eq_iff.mp last).2
  have moved : (putCharacter ch fg bg s).cursor = (0, s.row.val + 1) := by
    rw [putCharacter_cursor, State.cursor_eq_iff.mpr ⟨atEnd, rfl⟩, nextCursor_wrap above]
  obtain ⟨hcol, hrow⟩ := State.cursor_eq_iff.mp moved
  exact ⟨_, rfl, hcol, hrow, atEnd ▸ putCharacter_stores room ch fg bg⟩

/-- Settles O31: the third row of the table, where the write at cell 1999 is scrolled up to cell 1919. -/
theorem putcScrollsAtTheLastCell : Obligations.PutcScrollsAtTheLastCell := by
  intro ch fg bg s atEnd atBottom
  have last : s.cursor = (79, 24) := State.cursor_eq_iff.mpr ⟨atEnd, atBottom⟩
  have moved : (putCharacter ch fg bg s).cursor = (0, 24) := by rw [putCharacter_cursor, last, nextCursor_last]
  obtain ⟨hcol, hrow⟩ := State.cursor_eq_iff.mp moved
  refine ⟨_, rfl, hcol, hrow, fun i hi => ?_, ?_, fun j low high => ?_⟩ <;> rw [putCharacter_cell_scroll last]
  · rw [if_pos (by omega), if_neg (by omega)]
  · rw [if_pos (by decide), if_pos rfl]
  · rw [if_neg (by omega), if_pos high]
    decide

/-! ### Device and events (R85, R87) -/

/-- The position sent is the new cursor's. -/
theorem putCharacter_nextCursor (ch : Byte) (fg bg : ColorBits) (s : State) :
    nextCursor s.cursor = ((putCharacter ch fg bg s).col.val, (putCharacter ch fg bg s).row.val) :=
  (putCharacter_cursor ch fg bg s).symm

/-- Settles O33: the two bytes sent, joined again, are the position of the new cursor. -/
theorem putcSynchronisesTheDevice : Obligations.PutcSynchronisesTheDevice := by
  intro ch fg bg s
  refine ⟨_, rfl, ?_, ?_⟩ <;> rw [putCharacter_dev]
  rw [Device.cur, posHigh_append_posLow, putCharacter_nextCursor ch fg bg, devicePos_toNat (Fin.isLt _) (Fin.isLt _)]

/-- The grid that a scroll of `PutCharacter` reads: the old one, the character in its last cell. -/
theorem writeCell_cell_at_last {s : State} (last : s.cursor = (79, 24)) (v : CellWord) :
    (s.writeCell (linearPos s.col s.row) v).cell = fun i => if i = 1999 then v else s.cell i := by
  obtain ⟨hcol, hrow⟩ := State.cursor_eq_iff.mp last
  funext i
  simp only [State.writeCell_cell, State.cell_setCell, linearPos, hcol, hrow, eq_comm (a := i)]

/-- The events of a synchronisation with an in-range cursor (R102). -/
theorem syncEvents_devicePos {c r : Nat} (hc : c < 80) (hr : r < 25) :
    syncEvents (devicePos c r) =
      [.portWrite .cmd Config.platform.regCursorHigh, .portWrite .data (BitVec.ofNat 8 ((c + r * 80) / 256)),
       .portWrite .cmd Config.platform.regCursorLow, .portWrite .data (BitVec.ofNat 8 ((c + r * 80) % 256))] := by
  obtain ⟨high, low⟩ := devicePos_bytes hc hr
  rw [syncEvents, high, low]

/-- A `PutCharacter` adds 5 events, and the 3920 of a scroll when it makes one. -/
theorem putCharacter_trace_length (ch : Byte) (fg bg : ColorBits) (s : State) :
    (putCharacter ch fg bg s).trace.length = s.trace.length + if s.cursor = (79, 24) then 3925 else 5 := by
  rw [putCharacter_trace]
  split <;> simp [scrollEvents_length, syncEvents]

/-- Settles O32: the trace of `PutCharacter`, its scroll and its position written out. -/
theorem putcEvents : Obligations.PutcEvents := by
  intro ch fg bg s
  refine ⟨_, rfl, ?_, ?_⟩
  · rw [State.newEvents_of_append (putCharacter_trace ch fg bg s), putCharacter_nextCursor ch fg bg,
      syncEvents_devicePos (Fin.isLt _) (Fin.isLt _)]
    by_cases last : s.cursor = (79, 24)
    · rw [if_pos last, if_pos last, writeCell_cell_at_last last, linearPos]
    · rw [if_neg last, if_neg last, linearPos]
  · rw [State.newEvents, List.length_drop, putCharacter_trace_length, Nat.add_sub_cancel_left]

/-! ### What `PUTC` leaves alone, and what its operands do not decide (R80, R86) -/

/-- Settles O34: without a scroll the grid changes by one stored cell, and no action stores outside the grid. -/
theorem putcFrame : Obligations.PutcFrame := by
  intro ch fg bg s t h
  have outside : s.sameBytesOutside t (fun a => a < 4000) := fun a ha => (exec_acts h).read_outside (Nat.not_lt.mp ha)
  cases h
  refine ⟨putCharacter_input ch fg bg s, fun room a other => ?_, fun _ => outside⟩
  rw [putCharacter_grid room]
  exact State.setCell_read other s _

/-- Settles O35: the new cursor, the host's input and the number of events are each a function of the state alone. -/
theorem putcOperandsNeverMoveTheCursor : Obligations.PutcOperandsNeverMoveTheCursor := by
  intro ch ch' fg bg fg' bg' s t t' h h'
  cases h
  cases h'
  have cursor : (putCharacter ch fg bg s).cursor = (putCharacter ch' fg' bg' s).cursor := by
    rw [putCharacter_cursor, putCharacter_cursor]
  obtain ⟨hcol, hrow⟩ := State.cursor_eq_iff.mp cursor
  obtain ⟨hpending, htext⟩ := putCharacter_input ch fg bg s
  obtain ⟨hpending', htext'⟩ := putCharacter_input ch' fg' bg' s
  refine ⟨Fin.ext hcol, Fin.ext hrow, hpending.trans hpending'.symm, htext.trans htext'.symm, ?_⟩
  rw [putCharacter_trace_length, putCharacter_trace_length]

/-! ### The cursor along a text (R86, R116) -/

/-- The table of R86 counts: from (0, 0) it runs through the grid row by row and then along the last row for ever. -/
theorem nextCursor_count (n : Nat) :
    nextCursor (n % 80, min (n / 80) 24) = ((n + 1) % 80, min ((n + 1) / 80) 24) := by
  by_cases inRow : n % 80 < 79
  · rw [nextCursor_of_col_lt inRow, show (n + 1) % 80 = n % 80 + 1 by omega, show (n + 1) / 80 = n / 80 by omega]
  · rw [show n % 80 = 79 by omega, show (n + 1) % 80 = 0 by omega, show (n + 1) / 80 = n / 80 + 1 by omega]
    by_cases above : n / 80 < 24
    · rw [show min (n / 80) 24 = n / 80 by omega, nextCursor_wrap above, show min (n / 80 + 1) 24 = n / 80 + 1 by omega]
    · rw [show min (n / 80) 24 = 24 by omega, nextCursor_last, show min (n / 80 + 1) 24 = 24 by omega]

theorem nextCursor_iterate_origin (n : Nat) : nextCursor^[n] (0, 0) = (n % 80, min (n / 80) 24) := by
  induction n with
  | zero => rfl
  | succ n ih => rw [Function.iterate_succ_apply', ih, nextCursor_count]

@[simp] theorem State.emit_cursor (s : State) (e : Event) : (s.emit e).cursor = s.cursor := rfl

/-- A `WRTEXT` that has its bytes moves the cursor once per byte it writes. -/
theorem exec_wrtext_cursor {len : BitVec 32} {s : State} (supplied : Instr.wellFormed s.text (.wrtext len) = true) :
    ∃ t, exec (.wrtext len) s = .next t ∧
      t.cursor = nextCursor^[(textWritten len.toNat s.text).length] s.cursor := by
  refine ⟨_, exec_wrtext_of_wellFormed supplied, ?_⟩
  split
  · rw [State.emit_cursor, putText_cursor]
  · rw [putText_cursor]

/-- Settles O50: the count of the table, for as many moves as bytes are written. -/
theorem wrtextCursorFromTheTop : Obligations.WrtextCursorFromTheTop := by
  intro len s supplied atOrigin
  obtain ⟨t, ht, cursor⟩ := exec_wrtext_cursor supplied
  rw [atOrigin, nextCursor_iterate_origin] at cursor
  exact ⟨t, ht, State.cursor_eq_iff.mp cursor⟩

end Sys2Proof.Machine
end

section
/-! PROOFS. `SCROLL` (42_scroll.md): the rows it moves and the one it clears, its events in order, what it leaves alone,
and repeated scrolls (R90 to R95). -/

namespace Sys2Proof.Machine

/-! ### Cells (R90, R94) -/

/-- A cell above the last row holds what stood one row below. -/
theorem scroll_cell_of_lt {i : Nat} (h : i < 1920) (s : State) : (scroll s).cell i = s.cell (i + 80) := by
  rw [scroll_cell, if_pos h]

/-- A cell of the last row is clear. -/
theorem scroll_cell_last_row {i : Nat} (low : 1920 ≤ i) (high : i < 2000) (s : State) :
    (scroll s).cell i = clearCell := by
  rw [scroll_cell, if_neg (Nat.not_lt.mpr low), if_pos high]

/-- The model does not write beyond the last cell. -/
theorem scroll_cell_of_ge {i : Nat} (h : 2000 ≤ i) (s : State) : (scroll s).cell i = s.cell i := by
  rw [scroll_cell, if_neg (by omega), if_neg (by omega)]

theorem clearCell_eq : clearCell = 0x0020 := by decide

/-- Settles O36: cell `c + k * 80` is one row below cell `c + (k - 1) * 80`, and the cleared cell decodes to its fields. -/
theorem scrollPreservesAndClears : Obligations.ScrollPreservesAndClears := by
  refine fun s => ⟨_, rfl, fun k c first last inRow => ?_, fun c inRow => ?_⟩
  · rw [scroll_cell_of_lt (by omega), show c + (k - 1) * 80 + 80 = c + k * 80 by omega]
  · rw [scroll_cell_last_row (by omega) (by omega)]
    exact ⟨cellChar_encodeCell _ _ _, cellFg_encodeCell _ _ _, cellBg_encodeCell _ _ _⟩

/-! ### Events (R90, R91, R92, R95) -/

theorem newEvents_scroll (s : State) : s.newEvents (scroll s) = scrollEvents s.cell :=
  State.newEvents_of_append (scroll_trace s)

/-- In a list built of pairs, the pair of entry `i` stands at `2 * i` and `2 * i + 1`. -/
theorem getElem?_flatMap_pair {α β : Type} (f g : α → β) (l : List α) (i : Nat) :
    (l.flatMap fun a => [f a, g a])[2 * i]? = l[i]?.map f ∧
      (l.flatMap fun a => [f a, g a])[2 * i + 1]? = l[i]?.map g := by
  induction l generalizing i with
  | nil => exact ⟨rfl, rfl⟩
  | cons a l ih =>
    cases i with
    | zero => exact ⟨rfl, rfl⟩
    | succ i => exact ih i

/-- The two events of copy `i` (R91). -/
theorem scrollEvents_copy (old : Nat → CellWord) {i : Nat} (hi : i < 1920) :
    (scrollEvents old)[2 * i]? = some (.cellRead (i + 80) (old (i + 80))) ∧
      (scrollEvents old)[2 * i + 1]? = some (.cellWrite i (old (i + 80))) := by
  have length := shiftEvents_length 1920 old
  have copies := getElem?_flatMap_pair (fun i => Event.cellRead (i + 80) (old (i + 80)))
    (fun i => .cellWrite i (old (i + 80))) (List.range 1920) i
  rw [List.getElem?_range hi] at copies
  unfold scrollEvents
  rwa [List.getElem?_append_left (by omega), List.getElem?_append_left (by omega)]

/-- The event of clearing write `j` (R92). -/
theorem scrollEvents_clear (old : Nat → CellWord) {j : Nat} (hj : j < 80) :
    (scrollEvents old)[3840 + j]? = some (.cellWrite (1920 + j) clearCell) := by
  have length := shiftEvents_length 1920 old
  rw [scrollEvents, List.getElem?_append_right (by omega), length, List.getElem?_map, Nat.add_sub_cancel_left,
    List.getElem?_range hj]
  rfl

/-- Settles O37: the events are the pairs of the 1920 copies and then the 80 clearing writes. -/
theorem scrollEventsInOrder : Obligations.ScrollEventsInOrder := by
  intro s
  refine ⟨_, rfl, ?_⟩
  rw [newEvents_scroll, ← clearCell_eq]
  exact ⟨scrollEvents_length _, fun _ hi => scrollEvents_copy _ hi, fun _ hj => scrollEvents_clear _ hj⟩

/-! ### The frame (R93) -/

section WithCursor

variable (s : State) (c : Fin 80) (r : Fin 25)

theorem shiftCells_withCursor (n : Nat) :
    shiftCells n { s with col := c, row := r } = { shiftCells n s with col := c, row := r } := by
  induction n with
  | zero => rfl
  | succ n ih => exact congrArg (copyCell (n + 80) n) ih

theorem clearCells_withCursor (n : Nat) :
    clearCells n { s with col := c, row := r } = { clearCells n s with col := c, row := r } := by
  induction n with
  | zero => rfl
  | succ n ih => rw [clearCells, ih, writeCellAt_withCursor, clearCells]

/-- A scroll neither reads nor writes the cursor. -/
theorem scroll_withCursor :
    scroll { s with col := c, row := r } = { scroll s with col := c, row := r } := by
  rw [scroll, shiftCells_withCursor, clearCells_withCursor, scroll]

end WithCursor

/-- Settles O39: a scroll is copies and clearing writes, none of which is a port write, stores outside the grid or depends
on the cursor. -/
theorem scrollFrame : Obligations.ScrollFrame := by
  intro s t h
  have outside : s.sameBytesOutside t (fun a => a < 4000) := fun a ha => (exec_acts h).read_outside (Nat.not_lt.mp ha)
  cases h
  obtain ⟨hcol, hrow, hdev, input⟩ := scroll_frame s
  refine ⟨hcol, hrow, hdev, input, ?_, outside, fun c r => congrArg Host.Outcome.next (scroll_withCursor s c r)⟩
  rw [newEvents_scroll, portWriteCount_scrollEvents]

/-! ### A clear grid, and repeated scrolls (R90, R32) -/

theorem scroll_wf {s : State} (h : Memory.wf s.grid) : Memory.wf (scroll s).grid :=
  (scroll_acts s).keeps (P := fun u => Memory.wf u.grid) (fun _ _ act => act.wf) h

/-- A scroll of a clear grid changes no cell. -/
theorem scroll_cell_of_clear {s : State} (clear : ∀ i < 2000, s.cell i = clearCell) (i : Nat) :
    (scroll s).cell i = s.cell i := by
  rcases Nat.lt_or_ge i 2000 with inGrid | outside
  · rw [clear i inGrid]
    rcases Nat.lt_or_ge i 1920 with above | last
    · rw [scroll_cell_of_lt above, clear _ (by omega)]
    · exact scroll_cell_last_row last inGrid s
  · exact scroll_cell_of_ge outside s

/-- Settles O40: canonical grids with equal cells are equal data. -/
theorem scrollOfClearGridKeepsIt : Obligations.ScrollOfClearGridKeepsIt := by
  intro s canonical clear
  rw [← clearCell_eq] at clear
  refine ⟨_, rfl, State.grid_ext (scroll_wf canonical) canonical (scroll_cell_of_clear clear), ?_⟩
  rw [scroll_trace, List.length_append, scrollEvents_length]

/-- A cell of the grid after any number of scrolls. -/
theorem scroll_iterate_cell (s : State) (k : Nat) {i : Nat} (hi : i < 2000) :
    (scroll^[k] s).cell i = if i + k * 80 < 2000 then s.cell (i + k * 80) else clearCell := by
  induction k generalizing i with
  | zero => rw [if_pos (by omega), Nat.zero_mul]; rfl
  | succ k ih =>
    rw [Function.iterate_succ_apply']
    rcases Nat.lt_or_ge i 1920 with above | last
    · rw [scroll_cell_of_lt above, ih (by omega), show i + 80 + k * 80 = i + (k + 1) * 80 by omega]
    · rw [scroll_cell_last_row last hi, if_neg (by omega)]

/-- Settles O41: each scroll moves a cell's content up one more row. -/
theorem repeatedScrollClearsFromBelow : Obligations.RepeatedScrollClearsFromBelow := by
  intro s k _ i hi
  rw [scroll_iterate_cell s k hi, clearCell_eq]

end Sys2Proof.Machine
end

section
/-! PROOFS. The port channel (43_sync_cursor.md): the device as what the port writes of the trace made it, port writes only
as whole synchronisations, and `SYNCCUR` in range and out of it (R100 to R105). -/

namespace Sys2Proof.Machine

/-! ### The device is what the trace's port writes made it (R104) -/

/-- An event that is no access to the device, added without a change of the device, keeps the two equal. -/
theorem State.deviceIsReplay_emit {s : State} (hs : s.deviceIsReplay) {e : Event} (he : ∀ d, e.onDevice d = d) :
    (s.emit e).deviceIsReplay := by
  rw [State.deviceIsReplay, State.emit_dev, State.emit_trace, replayDevice_append, ← hs]
  exact (he _).symm

/-- A port write changes the device and its replay alike. -/
theorem State.deviceIsReplay_portWrite (s : State) (p : Port) (v : Byte) (hs : s.deviceIsReplay) :
    (s.portWrite p v).deviceIsReplay := by
  rw [State.deviceIsReplay, State.portWrite_dev, State.portWrite_trace, replayDevice_append, ← hs]
  rfl

/-- An action changes the device and its replay together: by port writes, or neither of them. -/
theorem Act.deviceIsReplay {s t : State} (h : Act s t) (hs : s.deviceIsReplay) : t.deviceIsReplay := by
  cases h with
  | readCell _ => exact State.deviceIsReplay_emit hs fun _ => rfl
  | writeCell _ v => exact State.deviceIsReplay_emit (s := s.setCell _ v) hs fun _ => rfl
  | sendPosition _ => exact sendPosition_keeps State.deviceIsReplay_portWrite hs
  | readText _ _ => exact State.deviceIsReplay_emit hs fun _ => rfl
  | setCursor _ _ => exact hs
  | issue _ _ => exact hs

/-- Settles O18: each action keeps the device and the replay of the trace equal. -/
theorem stepKeepsDeviceEqualToTrace : Obligations.StepKeepsDeviceEqualToTrace :=
  fun _ _ isReplay h => (step_acts h).keeps (fun _ _ act => act.deviceIsReplay) isReplay

/-! ### Port writes come as whole synchronisations (R102, R103) -/

/-- The only action that writes a port makes one whole synchronisation, of an in-range position. -/
theorem Act.portsSynchronised {s t : State} (h : Act s t) (hs : PortsSynchronised s.trace) :
    PortsSynchronised t.trace := by
  cases h with
  | readCell _ => exact .event hs rfl
  | writeCell _ _ => exact .event hs rfl
  | sendPosition inRange =>
    rw [sendPosition_trace]
    exact .sync hs inRange
  | readText _ _ => exact .event hs rfl
  | setCursor _ _ => exact hs
  | issue _ _ => exact hs

/-- Settles O19: each action adds a whole synchronisation or no port write at all. -/
theorem stepKeepsPortsSynchronised : Obligations.StepKeepsPortsSynchronised :=
  fun _ _ whole h => (step_acts h).keeps (P := fun u => PortsSynchronised u.trace)
    (fun _ _ act => act.portsSynchronised) whole

/-! ### The bound (R101) -/

theorem exec_synccur_in_range {col row : Byte} (hc : col.toNat < 80) (hr : row.toNat < 25) (s : State) :
    exec (.synccur col row) s = .next (sendPosition (devicePos col.toNat row.toNat) s) :=
  congrArg Host.Outcome.next (syncCursor_of_in_range hc hr s)

/-- Settles O44: the procedure's own bound, on the operands' values. -/
theorem synccurDropsOutOfRange : Obligations.SynccurDropsOutOfRange :=
  fun _ _ s outside => congrArg Host.Outcome.next (syncCursor_of_out_of_range outside s)

/-! ### The protocol and the device (R102, R104) -/

/-- Settles O42: a synchronisation adds its four events, here written out for the position of the operands. -/
theorem synccurProtocol : Obligations.SynccurProtocol := by
  intro col row s hc hr
  exact ⟨_, exec_synccur_in_range hc hr s, by rw [sendPosition_trace, syncEvents_devicePos hc hr]⟩

/-- Settles O43: the two bytes the device took, joined again, are the position of the operands. -/
theorem synccurMovesTheDeviceCursor : Obligations.SynccurMovesTheDeviceCursor := by
  intro col row s hc hr
  refine ⟨_, exec_synccur_in_range hc hr s, ?_, ?_⟩ <;> rw [sendPosition_dev]
  rw [Device.cur, posHigh_append_posLow, devicePos_toNat hc hr]

/-! ### The frame (R105) -/

/-- A synchronisation touches neither the cursor nor the grid nor the host's input. -/
theorem syncCursor_frame (col row : Nat) (s : State) :
    (syncCursor col row s).col = s.col ∧ (syncCursor col row s).row = s.row ∧
      (syncCursor col row s).grid = s.grid ∧ (syncCursor col row s).pending = s.pending ∧
      (syncCursor col row s).text = s.text := by
  unfold syncCursor
  split <;> exact ⟨rfl, rfl, rfl, rfl, rfl⟩

/-- A synchronisation neither reads nor writes the cursor. -/
theorem syncCursor_withCursor (col row : Nat) (s : State) (c : Fin 80) (r : Fin 25) :
    syncCursor col row { s with col := c, row := r } = { syncCursor col row s with col := c, row := r } := by
  unfold syncCursor
  split <;> rfl

/-- Settles O45: the frame of the procedure, in range and out of it. -/
theorem synccurFrame : Obligations.SynccurFrame := by
  intro col row s t h
  cases h
  obtain ⟨hcol, hrow, hgrid, input⟩ := syncCursor_frame col.toNat row.toNat s
  exact ⟨hcol, hrow, input, fun a _ => congrArg (Memory.read · a) hgrid,
    fun c r => congrArg Host.Outcome.next (syncCursor_withCursor col.toNat row.toNat s c r)⟩

end Sys2Proof.Machine
end

section
/-! PROOFS. `WRTEXT` (44_write_text.md): when it is refused, the bytes it writes, the state it answers, its events, and the
text as reads and `PUTC` commands (R110 to R117). -/

namespace Sys2Proof.Machine

/-! ### The contract (R117) and the bytes written (R112) -/

theorem textSuffices_iff {len : Nat} {bytes : List Byte} :
    textSuffices len bytes = true ↔ len ≤ bytes.length ∨ 0#8 ∈ bytes.take len := by
  simp [textSuffices]

theorem exec_wrtext_of_not_suffices {len : BitVec 32} {s : State} (short : ¬ textSuffices len.toNat s.text = true) :
    exec (.wrtext len) s = .refused .textTooShort := by
  rw [exec, execWrtext, textFound_eq_textSuffices, if_neg short]

/-- A `WRTEXT` that answers a next state had its bytes. -/
theorem textSuffices_of_exec_wrtext {len : BitVec 32} {s t : State} (h : exec (.wrtext len) s = .next t) :
    textSuffices len.toNat s.text = true := by
  by_contra short
  rw [exec_wrtext_of_not_suffices short] at h
  cases h

/-- Settles O51: the loop's scan is the contract, and a sequence shorter than the cap is wholly below it. -/
theorem wrtextRefusedWhenTextTooShort : Obligations.WrtextRefusedWhenTextTooShort := by
  intro len s
  have contract : ¬ textSuffices len.toNat s.text = true ↔ s.text.length < len.toNat ∧ 0#8 ∉ s.text := by
    rw [textSuffices_iff, not_or, Nat.not_le]
    exact and_congr_right fun short => by rw [List.take_of_length_le short.le]
  rw [← contract]
  refine ⟨fun refused supplied => ?_, exec_wrtext_of_not_suffices⟩
  rw [exec_wrtext_of_wellFormed supplied] at refused
  cases refused

/-- With its bytes supplied, a text stops short of the cap only at a zero byte that it has. -/
theorem textWritten_length_lt_iff {len : Nat} {bytes : List Byte} (supplied : textSuffices len bytes = true) :
    (textWritten len bytes).length < (bytes.take len).length ↔ (textWritten len bytes).length < len := by
  rcases textSuffices_iff.mp supplied with enough | zero
  · rw [List.length_take_of_le enough]
  · have written : textWritten len bytes <+: bytes.take len := List.takeWhile_prefix _
    have stops : (textWritten len bytes).length < (bytes.take len).length := by
      refine lt_of_le_of_ne written.length_le fun whole => ?_
      rw [← written.eq_of_length whole] at zero
      exact absurd (List.mem_takeWhile_imp zero) (by decide)
    exact ⟨fun _ => stops.trans_le (List.length_take_le _ _), fun _ => stops⟩

/-- The bytes before the cap, or before the first zero byte below it, are those written. -/
theorem textWritten_eq_take {len n : Nat} {bytes : List Byte} (below : n ≤ len)
    (clean : ∀ j < n, bytes[j]? ≠ some 0#8) (stop : n = len ∨ bytes[n]? = some 0#8) :
    textWritten len bytes = bytes.take n := by
  have noZero : ∀ b ∈ bytes.take n, decide (b ≠ 0#8) = true := fun b hb => by
    obtain ⟨j, hj⟩ := List.mem_iff_getElem?.mp hb
    rw [List.getElem?_take] at hj
    split at hj
    · next inside => exact decide_eq_true fun zero => clean j inside (zero ▸ hj)
    · cases hj
  rcases stop with rfl | zero
  · exact List.takeWhile_eq_self_iff.mpr noZero
  · rcases Nat.eq_or_lt_of_le below with rfl | room
    · exact List.takeWhile_eq_self_iff.mpr noZero
    · obtain ⟨inside, hb⟩ := List.getElem?_eq_some_iff.mp zero
      obtain ⟨k, rfl⟩ : ∃ k, len = n + (k + 1) := ⟨len - n - 1, by omega⟩
      rw [textWritten, List.take_add, List.takeWhile_append_of_pos noZero, List.drop_eq_getElem_cons inside, hb]
      simp

/-! ### The state a text leaves: its bytes, then perhaps the read of a zero byte (R110, R112) -/

/-- A state with events added, and nothing else. -/
def State.emitAll (s : State) (events : List Event) : State := { s with trace := s.trace ++ events }

@[simp] theorem State.emitAll_nil (s : State) : s.emitAll [] = s := by simp [State.emitAll]
@[simp] theorem State.emitAll_cursor (s : State) (events : List Event) : (s.emitAll events).cursor = s.cursor := rfl
@[simp] theorem State.emitAll_cell (s : State) (events : List Event) (i : Nat) :
    (s.emitAll events).cell i = s.cell i := rfl

/-- The read of the zero byte that ends a text of `n` bytes below the cap (R112). -/
def terminatorRead (len n : Nat) : List Event := if n < len then [.textRead n 0] else []

/-- What a `WRTEXT` that has its bytes answers. -/
theorem exec_wrtext_eq {len : BitVec 32} {s : State} (supplied : textSuffices len.toNat s.text = true) :
    exec (.wrtext len) s = .next ((putText 0 (textWritten len.toNat s.text) s).emitAll
      (terminatorRead len.toNat (textWritten len.toNat s.text).length)) := by
  rw [exec_wrtext_of_wellFormed supplied, terminatorRead]
  simp only [textWritten_length_lt_iff supplied]
  split
  · rfl
  · rw [State.emitAll_nil]

/-- Settles O52: no byte is written, and the terminator is read exactly when the cap is not 0. -/
theorem wrtextThatWritesNothing : Obligations.WrtextThatWritesNothing := by
  refine ⟨fun s => ?_, fun len s rest room text => ?_⟩
  · rw [exec_wrtext_eq (textSuffices_iff.mpr (.inl (Nat.zero_le _)))]
    simp [textWritten, putText, terminatorRead]
  · have nothing : textWritten len.toNat s.text = [] :=
      textWritten_eq_take (Nat.zero_le _) (fun _ h => absurd h (Nat.not_lt_zero _)) (.inr (by rw [text]; rfl))
    have zero : 0#8 ∈ s.text.take len.toNat := by
      rw [text, List.take_cons room]
      exact List.mem_cons_self
    rw [exec_wrtext_eq (textSuffices_iff.mpr (.inr zero)), nothing, terminatorRead, List.length_nil, if_pos room]
    rfl

/-! ### Events, byte by byte (R113, R115) -/

/-- The events of one stretch of a run after another. -/
theorem Acts.newEvents_trans {s t u : State} (first : Acts s t) (second : Acts t u) :
    s.newEvents u = s.newEvents t ++ t.newEvents u := by
  obtain ⟨e, he⟩ := first.trace_append
  obtain ⟨e', he'⟩ := second.trace_append
  have both : u.trace = s.trace ++ (e ++ e') := by rw [he', he, List.append_assoc]
  rw [State.newEvents_of_append he, State.newEvents_of_append he', State.newEvents_of_append both]

/-- Events added at the end of a run are its last new events. -/
theorem Acts.newEvents_emitAll {s t : State} (h : Acts s t) (events : List Event) :
    s.newEvents (t.emitAll events) = s.newEvents t ++ events := by
  obtain ⟨e, he⟩ := h.trace_append
  have both : (t.emitAll events).trace = s.trace ++ (e ++ events) := by rw [State.emitAll, he, List.append_assoc]
  rw [State.newEvents_of_append he, State.newEvents_of_append both]

/-- One turn of the loop of R110: byte `i` is read and written, white on black. -/
def putByte (i : Nat) (b : Byte) (s : State) : State := putCharacter b textFg textBg (s.emit (.textRead i b))

theorem putText_cons (i : Nat) (b : Byte) (rest : List Byte) (s : State) :
    putText i (b :: rest) s = putText (i + 1) rest (putByte i b s) := rfl

theorem putText_append_singleton (i : Nat) (bytes : List Byte) (b : Byte) (s : State) :
    putText i (bytes ++ [b]) s = putByte (i + bytes.length) b (putText i bytes s) := putText_concat i bytes b s

theorem putByte_acts (i : Nat) (b : Byte) (s : State) : Acts s (putByte i b s) :=
  .head (.readText s i b) (putCharacter_acts _ _ _ _)

theorem putByte_cursor (i : Nat) (b : Byte) (s : State) : (putByte i b s).cursor = nextCursor s.cursor :=
  putCharacter_cursor _ _ _ _

/-- The read comes first, then all that `PutCharacter` does (R115). -/
theorem newEvents_putByte (i : Nat) (b : Byte) (s : State) :
    s.newEvents (putByte i b s) = .textRead i b :: (s.emit (.textRead i b)).newEvents (putByte i b s) := by
  have read : s.newEvents (s.emit (.textRead i b)) = [.textRead i b] := State.newEvents_of_append rfl
  have write : Acts (s.emit (.textRead i b)) (putByte i b s) := putCharacter_acts _ _ _ _
  rw [Acts.newEvents_trans (.single (.readText s i b)) write, read, List.singleton_append]

/-- The events of one turn of the loop: the read, the write at the cursor, then a scroll or none and the synchronisation. -/
theorem newEvents_putByte_eq (i : Nat) (b : Byte) (s : State) :
    s.newEvents (putByte i b s) =
      [.textRead i b, .cellWrite (linearPos s.col s.row) (encodeCell b textFg textBg)] ++
        ((if s.cursor = (79, 24) then
            scrollEvents (s.writeCell (linearPos s.col s.row) (encodeCell b textFg textBg)).cell else []) ++
          syncEvents (devicePos (nextCursor s.cursor).1 (nextCursor s.cursor).2)) := by
  rw [newEvents_putByte]
  exact congrArg (Event.textRead i b :: ·) (State.newEvents_of_append (putCharacter_trace b textFg textBg _))

theorem portWriteCount_putByte (i : Nat) (b : Byte) (s : State) : portWriteCount (s.newEvents (putByte i b s)) = 4 := by
  rw [newEvents_putByte_eq, portWriteCount_append, portWriteCount_append]
  split
  · rw [portWriteCount_scrollEvents]
    rfl
  · rfl

theorem textReads_putByte (i : Nat) (b : Byte) (s : State) : textReads (s.newEvents (putByte i b s)) = [(i, b)] := by
  rw [newEvents_putByte_eq, textReads_append, textReads_append]
  split
  · rw [textReads_scrollEvents]
    rfl
  · rfl

/-- The events of a text: those of its first byte, then those of the rest in the state the first byte left. -/
theorem newEvents_putText_cons (i : Nat) (b : Byte) (rest : List Byte) (s : State) :
    s.newEvents (putText i (b :: rest) s) =
      s.newEvents (putByte i b s) ++ (putByte i b s).newEvents (putText (i + 1) rest (putByte i b s)) := by
  rw [putText_cons, (putByte_acts i b s).newEvents_trans (putText_acts (i + 1) rest _)]

theorem State.newEvents_self (s : State) : s.newEvents s = [] := List.drop_length

theorem portWriteCount_putText (i : Nat) (bytes : List Byte) (s : State) :
    portWriteCount (s.newEvents (putText i bytes s)) = 4 * bytes.length := by
  induction bytes generalizing i s with
  | nil => rw [putText, State.newEvents_self]; rfl
  | cons b rest ih =>
    rw [newEvents_putText_cons, portWriteCount_append, portWriteCount_putByte, ih, List.length_cons]
    omega

/-- The bytes are read one after another, each once. -/
theorem textReads_putText (i : Nat) (bytes : List Byte) (s : State) :
    textReads (s.newEvents (putText i bytes s)) = (bytes.zipIdx i).map Prod.swap := by
  induction bytes generalizing i s with
  | nil => rw [putText, State.newEvents_self]; rfl
  | cons b rest ih =>
    rw [newEvents_putText_cons, textReads_append, textReads_putByte, ih]
    rfl

/-- Right after its read, a byte is written at the cursor that the bytes before it left. -/
theorem putText_write_follows_read (i : Nat) (bytes : List Byte) (s : State) {j : Nat} {b : Byte}
    (hb : bytes[j]? = some b) :
    [.textRead (i + j) b,
      .cellWrite ((nextCursor^[j] s.cursor).1 + (nextCursor^[j] s.cursor).2 * 80) (encodeCell b textFg textBg)]
      <:+: s.newEvents (putText i bytes s) := by
  induction bytes generalizing i j s with
  | nil => cases hb
  | cons c rest ih =>
    rw [newEvents_putText_cons]
    cases j with
    | zero =>
      cases hb
      rw [newEvents_putByte_eq, List.append_assoc]
      exact (List.prefix_append _ _).isInfix
    | succ j =>
      have later := ih (i + 1) (putByte i c s) hb
      rw [putByte_cursor, ← Function.iterate_succ_apply, Nat.add_right_comm, Nat.add_assoc] at later
      exact later.trans (List.suffix_append _ _).isInfix

/-- A byte white on black is `0x0F00` plus the byte (R50, R113). -/
theorem encodeCell_text_toNat (b : Byte) : (encodeCell b textFg textBg).toNat = 0x0F00 + b.toNat := by
  rw [encodeCell_toNat, show (attributeByte textFg textBg).toNat = 15 from rfl]
  omega

theorem encodeCell_text (b : Byte) : encodeCell b textFg textBg = 0x0F00 + b.setWidth 16 := by
  apply BitVec.eq_of_toNat_eq
  rw [encodeCell_text_toNat, BitVec.toNat_add, BitVec.toNat_setWidth, show (0x0F00 : CellWord).toNat = 0x0F00 from rfl]
  omega

/-- A `WRTEXT` whose first `n` bytes are not zero, `n` the cap or the index of a zero byte below it: it writes these, and
its events are those of the writing and the read of that zero byte. -/
theorem exec_wrtext_of_stop {len : BitVec 32} {s : State} {n : Nat} (below : n ≤ len.toNat) (held : n ≤ s.text.length)
    (clean : ∀ j < n, s.text[j]? ≠ some 0#8) (stop : n = len.toNat ∨ s.text[n]? = some 0#8) :
    ∃ t, exec (.wrtext len) s = .next t ∧ t.cursor = nextCursor^[n] s.cursor ∧
      portWriteCount (s.newEvents t) = 4 * n ∧
      textReads (s.newEvents t) =
        (s.text.take n).zipIdx.map Prod.swap ++ (if n < len.toNat then [(n, 0#8)] else []) ∧
      ∀ j < n, ∀ b, s.text[j]? = some b →
        [.textRead j b,
          .cellWrite ((nextCursor^[j] s.cursor).1 + (nextCursor^[j] s.cursor).2 * 80) (0x0F00 + b.setWidth 16)]
          <:+: s.newEvents t := by
  have written := textWritten_eq_take below clean stop
  have count : (s.text.take n).length = n := List.length_take_of_le held
  have supplied : textSuffices len.toNat s.text = true := by
    rcases stop with rfl | zero
    · exact textSuffices_iff.mpr (.inl held)
    · rcases Nat.eq_or_lt_of_le below with rfl | room
      · exact textSuffices_iff.mpr (.inl held)
      · exact textSuffices_iff.mpr (.inr (List.mem_of_getElem? ((List.getElem?_take_of_lt room).trans zero)))
  refine ⟨_, exec_wrtext_eq supplied, ?_, ?_, ?_, fun j hj b hb => ?_⟩ <;> rw [written]
  · rw [State.emitAll_cursor, putText_cursor, count]
  · rw [(putText_acts _ _ _).newEvents_emitAll, portWriteCount_append, portWriteCount_putText, count, terminatorRead]
    split <;> rfl
  · rw [(putText_acts _ _ _).newEvents_emitAll, textReads_append, textReads_putText, count, terminatorRead]
    split <;> rfl
  · rw [(putText_acts _ _ _).newEvents_emitAll, ← encodeCell_text]
    have write := putText_write_follows_read 0 _ s ((List.getElem?_take_of_lt hj).trans hb)
    rw [Nat.zero_add] at write
    exact write.trans (List.prefix_append _ _).isInfix

theorem getElem?_zipIdx_swap {bytes : List Byte} {n j : Nat} {b : Byte} (hj : j < n) (hb : bytes[j]? = some b) :
    ((bytes.take n).zipIdx.map Prod.swap)[j]? = some (j, b) := by
  rw [List.getElem?_map, List.getElem?_zipIdx, List.getElem?_take_of_lt hj, hb, Nat.zero_add]
  rfl

/-- Settles O48: the loop stops at the cap, and reads nothing more. -/
theorem wrtextStopsAtTheCap : Obligations.WrtextStopsAtTheCap := by
  intro len s held clean
  obtain ⟨t, ht, cursor, ports, reads, writes⟩ := exec_wrtext_of_stop le_rfl held clean (.inl rfl)
  rw [if_neg (Nat.lt_irrefl _), List.append_nil] at reads
  refine ⟨t, ht, cursor, ports, ?_, fun j hj b hb => ?_, writes⟩ <;> rw [reads]
  · rw [List.length_map, List.length_zipIdx, List.length_take_of_le held]
  · exact getElem?_zipIdx_swap hj hb

/-- Settles O47: the loop stops at the zero byte, the last byte it reads. -/
theorem wrtextStopsAtTheZeroByte : Obligations.WrtextStopsAtTheZeroByte := by
  intro len s z room zero clean
  have held : z ≤ s.text.length := (List.getElem?_eq_some_iff.mp zero).1.le
  obtain ⟨t, ht, cursor, ports, reads, writes⟩ := exec_wrtext_of_stop room.le held clean (.inr zero)
  have count : ((s.text.take z).zipIdx.map Prod.swap).length = z := by
    rw [List.length_map, List.length_zipIdx, List.length_take_of_le held]
  rw [if_pos room] at reads
  refine ⟨t, ht, cursor, ports, ?_, fun j hj b hb => ?_, writes⟩ <;> rw [reads]
  · rw [List.length_append, count, List.length_singleton]
  · rcases Nat.eq_or_lt_of_le hj with rfl | before
    · obtain rfl : 0#8 = b := Option.some.inj (zero.symm.trans hb)
      rw [List.getElem?_append_right count.le, count, Nat.sub_self]
      rfl
    · rw [List.getElem?_append_left (count.symm ▸ before)]
      exact getElem?_zipIdx_swap before hb

/-! ### A text as reads and `PUTC` commands (R110) -/

/-- The state in which byte `k` of a text is about to be read. -/
def textState (bytes : List Byte) (s : State) (k : Nat) : State := putText 0 (bytes.take k) s

theorem textState_acts (bytes : List Byte) (s : State) (k : Nat) : Acts s (textState bytes s k) := putText_acts _ _ _

theorem textState_length (bytes : List Byte) (s : State) : textState bytes s bytes.length = putText 0 bytes s := by
  rw [textState, List.take_length]

theorem textState_succ {bytes : List Byte} {k : Nat} {b : Byte} (hb : bytes[k]? = some b) (s : State) :
    textState bytes s (k + 1) = putByte k b (textState bytes s k) := by
  have held : k ≤ bytes.length := (List.getElem?_eq_some_iff.mp hb).1.le
  rw [textState, List.take_add_one, hb, Option.toList_some, putText_append_singleton, List.length_take_of_le held,
    Nat.zero_add, textState]

/-- The events up to byte `k` are the events of the bytes before it, one after another. -/
theorem newEvents_textState {bytes : List Byte} {k : Nat} (held : k ≤ bytes.length) (s : State) :
    s.newEvents (textState bytes s k) =
      (List.range k).flatMap fun j => (textState bytes s j).newEvents (textState bytes s (j + 1)) := by
  induction k with
  | zero => exact s.newEvents_self
  | succ k ih =>
    have turn : Acts (textState bytes s k) (textState bytes s (k + 1)) := by
      rw [textState_succ (List.getElem?_eq_getElem held)]
      exact putByte_acts _ _ _
    rw [(textState_acts bytes s k).newEvents_trans turn, ih (Nat.le_of_succ_le held),
      List.range_succ, List.flatMap_append, List.flatMap_singleton]

/-- Settles O54: the states between are those in which a byte is about to be read, and `PUTC b, 15, 0` is the
`PutCharacter` of the loop. -/
theorem wrtextIsReadsAndPutcs : Obligations.WrtextIsReadsAndPutcs := by
  rintro len s n supplied rfl
  refine ⟨_, textState (textWritten len.toNat s.text) s, exec_wrtext_eq supplied, rfl, fun k b hb => ?_, ?_, ?_⟩
  · rw [textState_succ hb]
    exact ⟨rfl, newEvents_putByte k b _⟩
  · rw [textState_length, terminatorRead]
    split
    · rfl
    · exact State.emitAll_nil _
  · rw [(putText_acts _ _ _).newEvents_emitAll, ← textState_length, newEvents_textState le_rfl, terminatorRead]

end Sys2Proof.Machine
end

section
/-! PROOFS. The screen after a text (44_write_text.md, R84, R90, R116): every cell, both cursors and the number of events,
past the last cell too; and what a `WRTEXT` leaves alone (R110, R38, R45). -/

namespace Sys2Proof.Machine

/-! ### The cursor as a cell index -/

/-- The index of the cell at the logical cursor (R31). -/
def State.pos (s : State) : Nat := linearPos s.col s.row

theorem State.pos_lt (s : State) : s.pos < 2000 := linearPos_lt s

theorem State.cursor_eq_last_iff {s : State} : s.cursor = (79, 24) ↔ s.pos = 1999 := by
  have hc := s.col.isLt
  have hr := s.row.isLt
  rw [State.cursor_eq_iff, State.pos, linearPos]
  omega

/-- The table of R86 on indices: one cell on, and back to the start of the last row from the last cell. -/
theorem putByte_pos (i : Nat) (b : Byte) (s : State) :
    (putByte i b s).pos = if s.pos = 1999 then 1920 else s.pos + 1 := by
  have after : (putByte i b s).pos = linearPos (nextCursor s.cursor).1 (nextCursor s.cursor).2 := by
    rw [← putByte_cursor i b s]
    rfl
  rw [after]
  by_cases last : s.pos = 1999
  · rw [if_pos last, State.cursor_eq_last_iff.mpr last, nextCursor_last]
    rfl
  · rw [if_neg last]
    have hc := s.col.isLt
    have hr := s.row.isLt
    rw [State.pos, linearPos] at last ⊢
    by_cases inRow : s.col.val < 79
    · rw [State.cursor, nextCursor_of_col_lt inRow, linearPos, Nat.add_right_comm]
    · have atEnd : s.col.val = 79 := by omega
      rw [State.cursor, atEnd, nextCursor_wrap (by omega), linearPos]
      omega

/-- The cells after one turn of the loop that has room (R82, R83). -/
theorem putByte_cell {s : State} (room : s.pos ≠ 1999) (i : Nat) (b : Byte) (j : Nat) :
    (putByte i b s).cell j = if s.pos = j then encodeCell b textFg textBg else s.cell j :=
  putCharacter_cell (s := s.emit (.textRead i b)) (mt State.cursor_eq_last_iff.mp room) b textFg textBg j

/-- The cells after one turn of the loop that scrolls (R84). -/
theorem putByte_cell_scroll {s : State} (last : s.pos = 1999) (i : Nat) (b : Byte) (j : Nat) :
    (putByte i b s).cell j =
      if j < 1920 then if j = 1919 then encodeCell b textFg textBg else s.cell (j + 80)
      else if j < 2000 then clearCell else s.cell j :=
  putCharacter_cell_scroll (s := s.emit (.textRead i b)) (State.cursor_eq_last_iff.mpr last) b textFg textBg j

theorem putByte_trace_length (i : Nat) (b : Byte) (s : State) :
    (putByte i b s).trace.length = s.trace.length + if s.pos = 1999 then 3926 else 6 := by
  rw [putByte, putCharacter_trace_length, State.emit_cursor, State.emit_trace, List.length_append, List.length_singleton]
  simp only [State.cursor_eq_last_iff]
  split <;> omega

/-- The device's cursor after one turn of the loop is the logical cursor (R19, R85). -/
theorem putByte_dev_cur (i : Nat) (b : Byte) (s : State) : (putByte i b s).dev.cur.toNat = (putByte i b s).pos := by
  obtain ⟨t, ht, synchronised, -⟩ := putcSynchronisesTheDevice b textFg textBg (s.emit (.textRead i b))
  cases ht
  exact synchronised

/-! ### All of the screen (R84, R90, R116) -/

/-- One more byte makes one more scroll exactly when the cursor, `q` after `n` bytes, stands on the last cell. -/
theorem textScrolls_succ {p n q : Nat} (hq : q < 2000) (h : q + 80 * textScrolls p n = p + n) :
    textScrolls p (n + 1) = if q = 1999 then textScrolls p n + 1 else textScrolls p n := by
  unfold textScrolls at h ⊢
  by_cases room : p + n < 2000
  · rw [if_pos room] at h ⊢
    split <;> split <;> omega
  · rw [if_neg room] at h ⊢
    rw [if_neg (by omega)]
    split <;> omega

/-- How a text that began in state `s` stands on the screen of state `t`: everything has moved up by a row for each scroll,
and what the scrolls brought in from below is clear. -/
structure TextOnScreen (s : State) (bytes : List Byte) (m : Nat) (t : State) : Prop where
  scrolls : m = textScrolls s.pos bytes.length
  pos : t.pos + 80 * m = s.pos + bytes.length
  before : ∀ i, i + 80 * m < s.pos → t.cell i = s.cell (i + 80 * m)
  shown : ∀ i k b, i + 80 * m = s.pos + k → bytes[k]? = some b → t.cell i = encodeCell b textFg textBg
  beyond : ∀ i, s.pos + bytes.length ≤ i + 80 * m → t.cell i = if m = 0 ∨ 2000 ≤ i then s.cell i else clearCell
  events : t.trace.length = s.trace.length + 6 * bytes.length + 3920 * m

theorem textOnScreen_nil (s : State) : TextOnScreen s [] 0 s where
  scrolls := by exact (if_pos s.pos_lt).symm
  pos := rfl
  before _ _ := rfl
  shown _ _ _ _ h := by cases h
  beyond _ _ := (if_pos (.inl rfl)).symm
  events := rfl

/-- A byte of a text with one more at its end: of the text before, or the new one. -/
theorem getElem?_concat_cases {α : Type} {l : List α} {k : Nat} {a b : α} (h : (l ++ [a])[k]? = some b) :
    k < l.length ∧ l[k]? = some b ∨ k = l.length ∧ a = b := by
  rcases Nat.lt_trichotomy k l.length with lt | rfl | gt
  · exact .inl ⟨lt, (List.getElem?_append_left lt).symm.trans h⟩
  · rw [List.getElem?_concat_length] at h
    exact .inr ⟨rfl, Option.some.inj h⟩
  · rw [List.getElem?_eq_none (by rw [List.length_append, List.length_singleton]; omega)] at h
    cases h

/-- While the cursor is before the last cell, one more byte adds one cell to the text. -/
theorem TextOnScreen.putByte_of_room {s t : State} {bytes : List Byte} {m : Nat} (h : TextOnScreen s bytes m t)
    (room : t.pos ≠ 1999) (i : Nat) (b : Byte) : TextOnScreen s (bytes ++ [b]) m (putByte i b t) := by
  obtain ⟨scrolls, pos, before, shown, beyond, events⟩ := h
  have length : (bytes ++ [b]).length = bytes.length + 1 := List.length_append
  constructor
  case scrolls => rw [length, textScrolls_succ t.pos_lt (scrolls ▸ pos), if_neg room, scrolls]
  case pos =>
    rw [putByte_pos, if_neg room]
    omega
  case before =>
    intro j hj
    rw [putByte_cell room, if_neg (by omega), before j hj]
  case shown =>
    intro j k c hj hc
    rw [putByte_cell room]
    rcases getElem?_concat_cases hc with ⟨old, hc⟩ | ⟨rfl, rfl⟩
    · rw [if_neg (by omega), shown j k c hj hc]
    · rw [if_pos (by omega)]
  case beyond =>
    intro j hj
    rw [putByte_cell room, if_neg (by omega), beyond j (by omega)]
  case events =>
    rw [putByte_trace_length, if_neg room, events]
    omega

/-- At the last cell, one more byte scrolls the whole text up a row. -/
theorem TextOnScreen.putByte_of_last {s t : State} {bytes : List Byte} {m : Nat} (h : TextOnScreen s bytes m t)
    (last : t.pos = 1999) (i : Nat) (b : Byte) : TextOnScreen s (bytes ++ [b]) (m + 1) (putByte i b t) := by
  obtain ⟨scrolls, pos, before, shown, beyond, events⟩ := h
  have length : (bytes ++ [b]).length = bytes.length + 1 := List.length_append
  constructor
  case scrolls => rw [length, textScrolls_succ t.pos_lt (scrolls ▸ pos), if_pos last, scrolls]
  case pos =>
    rw [putByte_pos, if_pos last]
    omega
  case before =>
    intro j hj
    rw [putByte_cell_scroll last, if_pos (by omega), if_neg (by omega), before (j + 80) (by omega)]
    congr 1
    omega
  case shown =>
    intro j k c hj hc
    rw [putByte_cell_scroll last]
    rcases getElem?_concat_cases hc with ⟨old, hc⟩ | ⟨rfl, rfl⟩
    · rw [if_pos (by omega), if_neg (by omega), shown (j + 80) k c (by omega) hc]
    · rw [if_pos (by omega), if_pos (by omega)]
  case beyond =>
    intro j hj
    rw [putByte_cell_scroll last, if_neg (by omega)]
    split
    · rw [if_neg (by omega)]
    · rw [beyond j (by omega), if_pos (.inr (by omega)), if_pos (.inr (by omega))]
  case events =>
    rw [putByte_trace_length, if_pos last, events]
    omega

/-- A text stands on the screen as `TextOnScreen` says, byte after byte. -/
theorem putText_onScreen (bytes : List Byte) (s : State) :
    TextOnScreen s bytes (textScrolls s.pos bytes.length) (putText 0 bytes s) := by
  suffices ∃ m, TextOnScreen s bytes m (putText 0 bytes s) by
    obtain ⟨m, h⟩ := this
    exact h.scrolls ▸ h
  induction bytes using List.reverseRecOn with
  | nil => exact ⟨0, textOnScreen_nil s⟩
  | append_singleton bytes b ih =>
    obtain ⟨m, h⟩ := ih
    rw [putText_append_singleton]
    by_cases last : (putText 0 bytes s).pos = 1999
    · exact ⟨m + 1, h.putByte_of_last last _ b⟩
    · exact ⟨m, h.putByte_of_room last _ b⟩

/-- The device's cursor after a text that has a byte is the logical cursor (R19). -/
theorem putText_dev_cur {bytes : List Byte} (written : bytes ≠ []) (s : State) :
    (putText 0 bytes s).dev.cur.toNat = (putText 0 bytes s).pos := by
  rw [← List.dropLast_append_getLast written, putText_append_singleton]
  exact putByte_dev_cur _ _ _

/-- Settles O49: the screen of the text, with the terminator's read added to its events. -/
theorem wrtextFillsTheScreen : Obligations.WrtextFillsTheScreen := by
  rintro len s p n m supplied rfl rfl rfl
  obtain ⟨-, pos, before, shown, beyond, events⟩ := putText_onScreen (textWritten len.toNat s.text) s
  refine ⟨_, exec_wrtext_eq supplied, pos, before, fun i k b hi hb => ?_, fun i hi => ?_,
    fun written => putText_dev_cur written s, ?_⟩
  · rw [State.emitAll_cell, shown i k b hi hb, encodeCell_text_toNat]
  · exact clearCell_eq ▸ beyond i hi
  · rw [(putText_acts _ _ _).newEvents_emitAll, List.length_append, State.newEvents, List.length_drop, events,
      Nat.add_assoc, Nat.add_sub_cancel_left, terminatorRead, State.pos, linearPos]
    split <;> rfl

/-! ### What a `WRTEXT` leaves alone (R38, R45, R110) -/

/-- A byte of a cell that reads alike reads alike. -/
theorem State.read_eq_of_cell_eq {s t : State} {a : Nat} (h : t.cell (a / 2) = s.cell (a / 2)) :
    Memory.read t.grid a = Memory.read s.grid a := by
  rcases Nat.mod_two_eq_zero_or_one a with even | odd
  · rw [show a = 2 * (a / 2) by omega, ← State.cellChar_cell, ← State.cellChar_cell, h]
  · rw [show a = 2 * (a / 2) + 1 by omega, ← State.cell_colours, ← State.cell_colours, h]

/-- While a text does not reach the last cell, the cells before and behind it are as they were. -/
theorem putText_cell_outside {bytes : List Byte} {s : State} (room : s.pos + bytes.length < 2000) {i : Nat}
    (outside : i < s.pos ∨ s.pos + bytes.length ≤ i) : (putText 0 bytes s).cell i = s.cell i := by
  have screen := putText_onScreen bytes s
  rw [textScrolls, if_pos room] at screen
  rcases outside with before | behind
  · exact screen.before i before
  · exact (screen.beyond i behind).trans (if_pos (.inl rfl))

/-- Settles O53: the actions keep what is outside the grid, and the cells outside the text keep their bytes. -/
theorem wrtextFrame : Obligations.WrtextFrame := by
  intro len s t h
  have outside : s.sameBytesOutside t (fun a => a < 4000) := fun a ha => (exec_acts h).read_outside (Nat.not_lt.mp ha)
  rw [exec_wrtext_eq (textSuffices_of_exec_wrtext h)] at h
  cases h
  refine ⟨putText_input _ _ s, outside, fun room a other => ?_, fun nothing => ?_⟩
  · refine State.read_eq_of_cell_eq (putText_cell_outside room ?_)
    rw [State.pos, linearPos]
    omega
  · rw [nothing]
    exact ⟨rfl, rfl⟩

end Sys2Proof.Machine
end

section
/-! PROOFS. Exceptions (60_exceptions.md): there is none, so a command whose bytes meet its contract completes (R120, R123,
R117). -/

namespace Sys2Proof.Machine

/-- Settles O22: four commands answer the state of their procedure unconditionally, and `WRTEXT` does under its
contract. -/
theorem everyWellFormedCommandCompletes : Obligations.EveryWellFormedCommandCompletes := by
  intro i s supplied
  cases i with
  | wrcell ch fg bg pos => exact ⟨writeCellAt ch fg bg pos.toNat s, rfl⟩
  | putc ch fg bg => exact ⟨putCharacter ch fg bg s, rfl⟩
  | scroll => exact ⟨scroll s, rfl⟩
  | synccur col row => exact ⟨syncCursor col.toNat row.toNat s, rfl⟩
  | wrtext len => exact ⟨_, exec_wrtext_of_wellFormed supplied⟩

end Sys2Proof.Machine
end

section
/-! PROOFS. Runs and hazards (70_reset_and_hazards.md): the step of a decoded command, the whole-machine rules along
every run from reset, and what an observer sees in the middle of a scroll and of a synchronisation (R148 to R150, R154). -/

namespace Sys2Proof.Machine

/-! ### The step of a decoded command (R45, R148) -/

theorem step_of_decode {s : State} {c : Command} {rest : List Command} {i : Instr} (next : s.pending = c :: rest)
    (decoded : decode c.word = .ok i) : step s = exec i (s.issue c rest) := by
  simp only [step, next, decoded]

/-- Settles O10: `issue` is the update that the statement writes out. -/
theorem stepRunsTheDecodedCommand : Obligations.StepRunsTheDecodedCommand :=
  fun _ _ _ _ next decoded => step_of_decode next decoded

/-! ### Every run is safe (R154) -/

/-- What every step of a machine keeps, every run of it keeps. -/
theorem run_keeps {M : Host.Core} {P : M.State → Prop} (keep : ∀ s t, M.step s = .next t → P s → P t) {n : Nat}
    {s t : M.State} (h : M.run n s = .next t) (hs : P s) : P t := by
  induction n generalizing s with
  | zero =>
    cases h
    exact hs
  | succ n ih =>
    unfold Host.Core.run at h
    split at h
    · exact ih h (keep _ _ ‹_› hs)
    · cases h
    · cases h

/-- A step keeps each part of the invariant; only the coherence of the reads rests on another part, the grid's. -/
theorem State.Safe.step {s t : State} (safe : s.Safe) (h : step s = .next t) : t.Safe where
  gridCanonical := stepKeepsGridCanonical s t safe.gridCanonical h
  accessesInBounds := stepKeepsAccessesInBounds s t safe.accessesInBounds h
  gridIsReplay := stepKeepsGridEqualToTrace s t safe.gridIsReplay h
  readsAreReplay := stepKeepsReadsCoherent s t safe.gridIsReplay safe.readsAreReplay h
  deviceIsReplay := stepKeepsDeviceEqualToTrace s t safe.deviceIsReplay h
  portsSynchronised := stepKeepsPortsSynchronised s t safe.portsSynchronised h

/-- The invariant does not speak of the host's input, so the host may issue any commands. -/
theorem State.Safe.withPending {s : State} (safe : s.Safe) (commands : List Command) :
    ({ s with pending := commands } : State).Safe :=
  ⟨safe.gridCanonical, safe.accessesInBounds, safe.gridIsReplay, safe.readsAreReplay, safe.deviceIsReplay,
    safe.portsSynchronised⟩

/-- Settles O20: reset is safe with any commands issued, and every step keeps the invariant. -/
theorem everyRunIsSafe : Obligations.EveryRunIsSafe := fun commands _ _ run =>
  run_keeps (M := core) (P := State.Safe) (fun _ _ h safe => safe.step h) run (resetIsSafe.withPending commands)

/-! ### A scroll seen midway (R91, R95, R150) -/

/-- More copies of the shift are further actions after fewer. -/
theorem shiftCells_acts_of_le {k n : Nat} (hk : k ≤ n) (hn : n ≤ 1920) (s : State) :
    Acts (shiftCells k s) (shiftCells n s) := by
  induction n, hk using Nat.le_induction with
  | base => exact .refl
  | succ n _ ih =>
    exact ((ih (by omega)).tail (.readCell _ (i := n + 80) (by omega))).tail (.writeCell _ (by omega) _)

theorem shiftCells_trace_length (k : Nat) (s : State) : (shiftCells k s).trace.length = s.trace.length + 2 * k := by
  rw [shiftCells_trace, List.length_append, shiftEvents_length, Nat.mul_comm]

/-- The events of a scroll up to its copy `k` are those of the first `k` copies. -/
theorem scroll_trace_take {k : Nat} (hk : k ≤ 1920) (s : State) :
    (scroll s).trace.take (s.trace.length + 2 * k) = (shiftCells k s).trace := by
  have onwards : Acts (shiftCells k s) (scroll s) :=
    (shiftCells_acts_of_le hk (Nat.le_refl _) s).trans (clearCells_acts (Nat.le_refl _) _)
  obtain ⟨later, whole⟩ := onwards.trace_append
  rw [whole, List.take_left' (shiftCells_trace_length k s)]

/-- Settles O38: the copies keep the grid equal to its trace, so the events up to copy `k` show the grid that `k` copies
leave. -/
theorem scrollSeenMidway : Obligations.ScrollSeenMidway := by
  refine fun s isReplay => ⟨_, rfl, fun k hk i hi => ?_⟩
  have shifted : (shiftCells k s).gridIsReplay :=
    (shiftCells_acts hk s).keeps (fun _ _ act => act.gridIsReplay) isReplay
  rw [State.cellAfter, scroll_trace_take hk, ← shifted i hi, shiftCells_cell]

/-! ### A torn device cursor (R104, R149) -/

/-- Once the high byte is written and until the low byte is, the device's cursor is the new high byte joined to the old
low byte; selecting the low register in between changes neither. -/
theorem replayDevice_syncEvents_torn (d : Device) (p : BitVec 16) {k : Nat} (hk : k = 2 ∨ k = 3) :
    (replayDevice d ((syncEvents p).take k)).cur = posHigh p ++ d.curLo := by
  rcases hk with rfl | rfl <;> simp [syncEvents, replayDevice, Event.onDevice, Device.write, Device.cur]

/-- Settles O46: the new events of the command are those of one synchronisation with the operands' position. -/
theorem tornDeviceCursor : Obligations.TornDeviceCursor := by
  intro col row s hc hr
  refine ⟨_, exec_synccur_in_range hc hr s, fun k hk => ?_⟩
  obtain ⟨high, -⟩ := devicePos_bytes hc hr
  rw [State.newEvents_of_append (sendPosition_trace _ s), replayDevice_syncEvents_torn _ _ hk, high]

end Sys2Proof.Machine
end
